-- ==== Sys2Proof/Word.lean ====
section
/-! DEFINITION. The two word types of the block: the 32-bit word of the host port and the 8-bit symbol. -/

namespace Sys2Proof

/-- The 32-bit word every host access moves (20_memory.md R60, R69). -/
abbrev Word := BitVec 32

/-- A symbol: 8 bits, one buffer entry (30_encoding.md R90). -/
abbrev Byte := BitVec 8

/-- `zext_32` of 00_scope.md R14, for a symbol. -/
def zextByte (v : Byte) : Word := v.setWidth 32

/-- A one-bit flag as the bit of a word (00_scope.md R14). -/
def bit (v : Bool) : Word := if v then 1#32 else 0#32

end Sys2Proof
end

