-- ==== Sys2Proof/Config.lean ====
section
/-! DEFINITION. What the implementation fixes: the buffer sizes, and the free values of the spec's unspecified contents. -/

namespace Sys2Proof.Config

/-- `T` of 00_scope.md R11: the characters of a tail of 0, 1 or 2 bytes. -/
def tailChars (r : Nat) : Nat :=
  if r = 1 then 2 else if r = 2 then 4 else 0

/-- `encLen(n)`, the length of the encoding of `n` bytes (00_scope.md R11, 90_conflicts.md C1). -/
def encLen (n : Nat) : Nat := 5 * (n / 3) + tailChars (n % 3)

/-- `U` of 00_scope.md R11: the bytes of a tail of 0, 2 or 4 characters. R11 defines it there only. -/
def tailBytes (r : Nat) : Nat :=
  if r = 2 then 1 else if r = 4 then 2 else 0

/-- `decLen(n)`, the bytes a valid string of `n` characters decodes to (00_scope.md R11), for `n mod 5` in 0, 2, 4. -/
def decLen (n : Nat) : Nat := 3 * (n / 5) + tailBytes (n % 5)

/-- The reference value of the parameter `IBUF_SIZE` (00_scope.md R10). -/
def referenceIbufSize : Nat := 1024

/-- The constraint on the parameter `IBUF_SIZE` (00_scope.md R10). -/
abbrev legalIbufSize (n : Nat) : Prop := 1 ≤ n ∧ n ≤ 1024

/-- `OBUF_SIZE = encLen(IBUF_SIZE)` (00_scope.md R10). -/
def obufSize (ibufSize : Nat) : Nat := encLen ibufSize

/-- FREE VALUE (log entry 2): what entry `i` of `IBUF` holds after reset step number `n` until the host writes it.
"each entry holds some 8-bit value, stable until the host writes that entry" (70_reset_and_hazards.md R261). -/
opaque ibufAtReset : Nat → Nat → Byte

/-- FREE VALUE (log entry 3): what entry `j` of the physical `OBUF` holds after reset step number `n` until the engine
writes it (70_reset_and_hazards.md R261). -/
opaque obufAtReset : Nat → Nat → Byte

end Sys2Proof.Config
end

