-- ==== Sys2Proof/Syntax.lean ====
section
/-! DEFINITION. The command set of the block: one constructor per row of the opcode table. -/

namespace Sys2Proof

/-- The commands of 30_encoding.md R99. No command has an operand field (R98): operands are implicit. -/
inductive Instr
  /-- `NOP`, 40_commands.md R125. -/
  | nop
  /-- `ENC`, 41_encoder.md R150. -/
  | enc
  /-- `DEC`, 42_decoder.md R180. -/
  | dec
  /-- `DECN`, 42_decoder.md R181. -/
  | decn
  /-- `CLR`, 40_commands.md R126. -/
  | clr
  /-- The reserved row: every 32-bit word other than 0 to 4, 30_encoding.md R100. -/
  | reserved (w : Word)
deriving DecidableEq, Repr

/-- The column "class" of 30_encoding.md R99. -/
inductive CommandClass
  /-- Takes effect entirely in the write step and never sets `BUSY`. -/
  | immediate
  /-- Sets `BUSY` and is finished by the engine. -/
  | launching
deriving DecidableEq, Repr

/-- The class of each command, 30_encoding.md R99. -/
def Instr.commandClass : Instr → CommandClass
  | .nop => .immediate
  | .enc => .launching
  | .dec => .launching
  | .decn => .launching
  | .clr => .immediate
  | .reserved _ => .launching

end Sys2Proof
end

