-- ==== Sys2Proof/WellFormed.lean ====
section
/-! DEFINITION. When a term of `Instr` stands for a word the block can be given as that command. -/

namespace Sys2Proof

/-- A reserved word is any word but the five assigned ones (30_encoding.md R100). -/
def isReservedWord (w : Word) : Bool :=
  w != 0#32 && w != 1#32 && w != 2#32 && w != 3#32 && w != 4#32

/-- The one check on commands: the word a `reserved` term carries is reserved (30_encoding.md R100). -/
def Instr.wellFormed : Instr → Bool
  | .nop => true
  | .enc => true
  | .dec => true
  | .decn => true
  | .clr => true
  | .reserved w => isReservedWord w

end Sys2Proof
end

