-- ==== Sys2Proof/Decode.lean ====
section
/-! DEFINITION. The command decoder, then the encoder, both from the table of 30_encoding.md R99. -/

namespace Sys2Proof

/-- The field `op` of the format `CMD32`, bits 7:0 (30_encoding.md R98). -/
def opField (w : Word) : BitVec 8 := w.extractLsb' 0 8

/-- The field `zero` of the format `CMD32`, bits 31:8 (30_encoding.md R98). -/
def zeroField (w : Word) : BitVec 24 := w.extractLsb' 8 24

/-- The command a word written to `CMD` issues: the match is on all 32 bits (30_encoding.md R99), and every
other word is reserved, none behaving as another command (R100). -/
def decode (w : Word) : Instr :=
  if w = 0x00000000#32 then .nop
  else if w = 0x00000001#32 then .enc
  else if w = 0x00000002#32 then .dec
  else if w = 0x00000003#32 then .decn
  else if w = 0x00000004#32 then .clr
  else .reserved w

/-- Why bits offered as a command are none. -/
inductive DecodeRefusal
  /-- More than 32 bits: the format `CMD32` is one word and there is no second word (30_encoding.md R98). -/
  | widerThanOneWord
deriving DecidableEq, Repr

/-- The command of a row of `nbits` bits with value `w`, the bits above `nbits` taken as 0. The word is moved as one
number, so no byte order enters (20_memory.md R67). -/
def decodeBits (nbits w : Nat) : Except DecodeRefusal Instr :=
  if nbits ≤ 32 then .ok (decode (BitVec.ofNat 32 (w % 2 ^ nbits))) else .error .widerThanOneWord

/-- The decoder on the opcode table's numbering of bits. -/
def decodeTableWord (nbits w : Nat) : Option Instr :=
  match decodeBits nbits w with
  | .ok i => some i
  | .error _ => none

/-- The word of a command, 30_encoding.md R99. -/
def encode : Instr → Word
  | .nop => 0x00000000#32
  | .enc => 0x00000001#32
  | .dec => 0x00000002#32
  | .decn => 0x00000003#32
  | .clr => 0x00000004#32
  | .reserved w => w

end Sys2Proof
end

