-- ==== Sys2Proof/Machine/State.lean ====
section
/-! DEFINITION. The state of the block as plain data, the two agents' steps, the reasons a step can stop, and the state
after reset. -/

namespace Sys2Proof.Machine

/-- The word index `addr[13:2]` a host access carries: the port has no other address bits, so a misaligned access
cannot be expressed (20_memory.md R60, R68). -/
abbrev PortIndex := BitVec 12

/-- A buffer of symbols: the entries written since the last reset, as (index, symbol) pairs in rising order of index.
An index that is not listed has no written value; what it holds is a free value of Config (log entries 2, 3, 11). -/
abbrev Memory := List Host.Cell

/-- The canonical form of a buffer's entries: indices strictly rising. A listed entry is a written one and an unlisted
one is not, so no entry equals what an unlisted index has. -/
abbrev Memory.wf (m : Memory) : Prop := (m.map Prod.fst).Pairwise (· < ·)

/-- Every listed index lies inside a buffer of `size` entries. -/
abbrev Memory.within (size : Nat) (m : Memory) : Prop := ∀ c ∈ m, c.1 < size

/-- The values `ECODE` ever holds (10_state.md R30, 93 U8: exactly four errors besides "none"). -/
inductive ErrorCode
  /-- 0: no error. -/
  | none
  /-- 1: `InvalidCharacter`, 60_exceptions.md R222. -/
  | invalidCharacter
  /-- 2: `InvalidLength`, 60_exceptions.md R223. -/
  | invalidLength
  /-- 3: `BadCommand`, 60_exceptions.md R224. -/
  | badCommand
  /-- 4: `InputOverrun`, 60_exceptions.md R225. -/
  | inputOverrun
deriving DecidableEq, Repr

/-- The result of a launched command, `Ok(sequence of symbols)` or `Err(code, ch, pos)` (40_commands.md R129). -/
inductive CommandResult
  /-- The command succeeds with this output. -/
  | ok (out : List Byte)
  /-- The command ends with an error: its code and what `ECHAR` and `EPOS` record. -/
  | err (code : ErrorCode) (ch : Byte) (pos : Nat)
deriving DecidableEq, Repr

/-- The architectural state of the block, 10_state.md R23, with its parameter and the reset counter. -/
structure Block where
  /-- `CTRL.IE`, 10_state.md R24. -/
  ie : Bool
  /-- `STATUS.BUSY`, 10_state.md R25. -/
  busy : Bool
  /-- `STATUS.DONE`, 10_state.md R25. -/
  done : Bool
  /-- `STATUS.ERR`, 10_state.md R25. -/
  err : Bool
  /-- `STATUS.HZD`, 10_state.md R25. -/
  hzd : Bool
  /-- `CMD`, 10_state.md R27. -/
  cmd : Word
  /-- `ILEN`, 10_state.md R28. -/
  ilen : Word
  /-- `OLEN`, 10_state.md R29. -/
  olen : Word
  /-- `ECODE`, 10_state.md R30. -/
  ecode : ErrorCode
  /-- `ECHAR`, 10_state.md R31. -/
  echar : Byte
  /-- `EPOS`, 10_state.md R39. -/
  epos : Word
  /-- `IBUF`, 10_state.md R32: the entries the host has written since the last reset. -/
  ibuf : Memory
  /-- `OBUF`, 10_state.md R32: the entries the engine has written since the last reset. -/
  obuf : Memory
  /-- The parameter `IBUF_SIZE`, 00_scope.md R10, which `CAP` shows. No step changes it (log entry 1). -/
  ibufSize : Nat
  /-- The model's own: how many reset steps were taken, the argument of the free buffer contents (log entry 2). -/
  resets : Nat
deriving DecidableEq, Repr

/-- The four kinds of atomic step (00_scope.md R12): three of the host, one of the engine. -/
inductive AgentStep
  /-- `MemRead(4*a, 4)`, 40_commands.md R122. -/
  | hostRead (a : PortIndex)
  /-- `MemWrite(4*a, 4, d)`, 40_commands.md R123. -/
  | hostWrite (a : PortIndex) (d : Word)
  /-- The reset step, 70_reset_and_hazards.md R261. -/
  | hostReset
  /-- The engine's completion step, 40_commands.md R128. -/
  | engineCompletion
deriving DecidableEq, Repr

/-- The machine: the block, and the two agents' coming and past dealings with it. -/
structure State where
  /-- The block's own state. -/
  block : Block
  /-- The model's own: the agents' coming steps, the next one first. Any list is a possible future, so every placement
  of the completion among the host's accesses is covered (40_commands.md R121, log entry 4). -/
  pending : List AgentStep
  /-- The model's own: the words host reads have returned, the oldest first (20_memory.md R60, log entry 6). -/
  replies : List Word
deriving DecidableEq, Repr

/-- Machine faults. There are none, and nothing raises one: "No access ever stalls for ever, faults the host, or
returns an error response" (20_memory.md R62); the block's errors are register contents (60_exceptions.md R220).
Safe: the spec gives every step a next state (log entry 9). -/
inductive Fault
deriving DecidableEq, Repr

/-- Refusals. -/
inductive Refusal
  /-- Raised by no meaning: only an arm of `exec` without a meaning would answer it, and there is none. Safe. -/
  | notModelled (mnemonic : String)
deriving DecidableEq, Repr

/-- What the next agent step amounts to: a command handed to `exec`, or a step that is wholly the host port's or the
engine's. -/
inductive Action
  /-- A host write to `CMD` issues this command in this state. -/
  | command (i : Instr) (s : State)
  /-- Any other step, with the state it leads to. -/
  | other (s : State)
deriving DecidableEq, Repr

/-- The block just after its first reset step, for a given `IBUF_SIZE` (10_state.md R37). -/
def Block.afterReset (ibufSize : Nat) : Block where
  ie := false
  busy := false
  done := false
  err := false
  hzd := false
  cmd := 0
  ilen := 0
  olen := 0
  ecode := .none
  echar := 0
  epos := 0
  ibuf := []
  obuf := []
  ibufSize := ibufSize
  resets := 0

/-- The machine after reset in the reference configuration (10_state.md R37, 00_scope.md R10): no agent step is
pending and no read has been answered. -/
def State.reset : State where
  block := Block.afterReset Config.referenceIbufSize
  pending := []
  replies := []

end Sys2Proof.Machine
end

