-- ==== Sys2Proof/Machine/Tables.lean ====
section
/-! DEFINITION. The three constant ROMs of the block (10_state.md R33). No step writes them and no access reads them. -/

namespace Sys2Proof.Machine

/-- A digit, 0 to 37 (00_scope.md R9). -/
abbrev Digit := Fin 38

/-- The content of the alphabet lookup ROM `A38`, index 0 first (30_encoding.md R92). -/
def alphabetRom : Vector Byte 38 :=
  #v[0x30, 0x31, 0x32, 0x33, 0x34, 0x35, 0x36, 0x37, 0x38, 0x39,
     0x41, 0x42, 0x43, 0x44, 0x45, 0x46, 0x47, 0x48, 0x49, 0x4A,
     0x4B, 0x4C, 0x4D, 0x4E, 0x4F, 0x50, 0x51, 0x52, 0x53, 0x54,
     0x55, 0x56, 0x57, 0x58, 0x59, 0x5A, 0x2D, 0x2E]

/-- `A38[v]` (30_encoding.md R92). An index of 38 or more does not exist, and the type has none. -/
def a38 (v : Digit) : Byte := alphabetRom[v]

/-- An entry of the reverse-lookup table: 7 bits (10_state.md R33). -/
structure ReverseEntry where
  /-- Whether the code is an alphabet character. -/
  valid : Bool
  /-- Its value, defined as 0 where the code is not (30_encoding.md R94). -/
  val : BitVec 6
deriving DecidableEq, Repr

/-- `R38[c]`, the reverse-lookup table as 30_encoding.md R94 writes it out. -/
def r38 (c : Byte) : ReverseEntry :=
  if c = 0x2D#8 then ⟨true, 36#6⟩
  else if c = 0x2E#8 then ⟨true, 37#6⟩
  else if 0x30#8 ≤ c ∧ c ≤ 0x39#8 then ⟨true, (c - 0x30#8).setWidth 6⟩
  else if 0x41#8 ≤ c ∧ c ≤ 0x5A#8 then ⟨true, (c - 0x37#8).setWidth 6⟩
  else ⟨false, 0#6⟩

/-- The digit value of a character as a number (42_decoder.md R187). -/
def digitValue (c : Byte) : Nat := (r38 c).val.toNat

/-- The content of the ROM `PFX`: the three symbols of `MT:` (30_encoding.md R95). -/
def pfx : List Byte := [0x4D#8, 0x54#8, 0x3A#8]

end Sys2Proof.Machine
end

