-- ==== Sys2Proof/Machine/Ops.lean ====
section
/-! DEFINITION. The named operations over the buffers and the registers, among them the error entry and what leaves it. -/

namespace Sys2Proof.Machine

/-- The value written at index `i` since the last reset, if any. -/
def Memory.cell? : Memory → Nat → Option Byte
  | [], _ => none
  | (a, v) :: m, i => if a = i then some v else Memory.cell? m i

/-- Writes one entry, keeping the indices rising. -/
def Memory.store : Memory → Nat → Byte → Memory
  | [], i, v => [(i, v)]
  | (a, w) :: m, i, v =>
    if i < a then (i, v) :: (a, w) :: m
    else if i = a then (i, v) :: m
    else (a, w) :: Memory.store m i v

/-- Writes consecutive entries from index `j` on: `OBUF[j] <- out[j]` of 40_commands.md R128. -/
def Memory.storeFrom : Memory → Nat → List Byte → Memory
  | m, _, [] => m
  | m, j, v :: vs => Memory.storeFrom (m.store j v) (j + 1) vs

/-- `IBUF[i]`: the written value, or the free value it has held since reset (10_state.md R37). -/
def Block.ibufByte (b : Block) (i : Nat) : Byte :=
  (b.ibuf.cell? i).getD (Config.ibufAtReset b.resets i)

/-- `OBUF[j]`, the physical entry: the written value, or the free value it has held since reset (10_state.md R37). -/
def Block.obufByte (b : Block) (j : Nat) : Byte :=
  (b.obuf.cell? j).getD (Config.obufAtReset b.resets j)

/-- `OBUF_SIZE` (00_scope.md R10). -/
def Block.obufSize (b : Block) : Nat := Config.obufSize b.ibufSize

/-- A dropped write: no state changes other than `HZD` (40_commands.md R123, 60_exceptions.md R230). -/
def Block.drop (b : Block) : Block := { b with hzd := true }

/-- A write that is accepted only while `BUSY = 0` (40_commands.md R123 case 2): otherwise dropped. -/
def Block.unlessBusy (b accepted : Block) : Block := if b.busy then b.drop else accepted

/-- `CTRL.IE <- v` (40_commands.md R123 case 3). -/
def Block.setIe (b : Block) (v : Bool) : Block := { b with ie := v }

/-- `ILEN <- d` (40_commands.md R123 case 4). -/
def Block.setIlen (b : Block) (d : Word) : Block := { b with ilen := d }

/-- `IBUF[i] <- v` (40_commands.md R123 case 5). -/
def Block.setIbuf (b : Block) (i : Nat) (v : Byte) : Block := { b with ibuf := b.ibuf.store i v }

/-- `CMD <- w`: an accepted command word is recorded (40_commands.md R124). -/
def Block.record (b : Block) (w : Word) : Block := { b with cmd := w }

/-- Clears the previous outcome: `DONE`, `ERR`, `OLEN`, `ECODE`, `ECHAR`, `EPOS` to 0. This is how an error is left,
by a launch or by `CLR` (60_exceptions.md R228, 40_commands.md R126, R127). -/
def Block.clearOutcome (b : Block) : Block :=
  { b with done := false, err := false, olen := 0, ecode := .none, echar := 0, epos := 0 }

/-- `STATUS.HZD <- 0` (40_commands.md R126). -/
def Block.clearHazard (b : Block) : Block := { b with hzd := false }

/-- `STATUS.BUSY <- 1` (40_commands.md R127). -/
def Block.startEngine (b : Block) : Block := { b with busy := true }

/-- Launch of an accepted command word (40_commands.md R127). -/
def Block.launch (b : Block) (w : Word) : Block := (b.record w).clearOutcome.startEngine

/-- The completion of a command that succeeds (40_commands.md R128, case `Ok`). Entries of `OBUF` beyond the output
keep what they held (log entry 3). -/
def Block.finish (b : Block) (out : List Byte) : Block :=
  { b with obuf := b.obuf.storeFrom 0 out, olen := BitVec.ofNat 32 out.length, done := true, busy := false }

/-- ERROR ENTRY, the one way an error is taken (60_exceptions.md R227; 40_commands.md R128, case `Err`): what is saved
is the code, the character and the position; the flags say completed with an error; nothing else changes. -/
def Block.enterError (b : Block) (code : ErrorCode) (ch : Byte) (pos : Nat) : Block :=
  { b with ecode := code, echar := ch, epos := BitVec.ofNat 32 pos, err := true, done := true, busy := false }

/-- What the completion step publishes for a result (40_commands.md R128). -/
def Block.publish (b : Block) : CommandResult → Block
  | .ok out => b.finish out
  | .err code ch pos => b.enterError code ch pos

/-- The reset step on the block, from any state (70_reset_and_hazards.md R261). The buffers' contents become
unspecified again: no entry counts as written and the reset counter gives them a fresh free value (log entries 2, 3). -/
def Block.resetStep (b : Block) : Block :=
  { b with
    ie := false, busy := false, done := false, err := false, hzd := false
    cmd := 0, ilen := 0, olen := 0, ecode := .none, echar := 0, epos := 0
    ibuf := [], obuf := [], resets := b.resets + 1 }

/-- The machine with another block. -/
def State.withBlock (s : State) (b : Block) : State := { s with block := b }

/-- The machine with other coming agent steps. -/
def State.withPending (s : State) (p : List AgentStep) : State := { s with pending := p }

/-- The machine after a host read has returned `d` (20_memory.md R60). -/
def State.reply (s : State) (d : Word) : State := { s with replies := s.replies ++ [d] }

end Sys2Proof.Machine
end

