-- ==== Sys2Proof/Machine/Operands.lean ====
section
/-! DEFINITION. The operands of the launching commands, all implicit (30_encoding.md R98, 20_memory.md R70). -/

namespace Sys2Proof.Machine

/-- `buf[0 .. L)`, the first `L` entries of a buffer given by its reads (00_scope.md R15, 40_commands.md R129). -/
def firstSymbols (buf : Nat → Byte) (L : Nat) : List Byte := (List.range L).map buf

/-- The input length `L = ILEN` (10_state.md R28). -/
def Block.inputLength (b : Block) : Nat := b.ilen.toNat

/-- The operand of a launched command: `IBUF[0 .. ILEN)` (10_state.md R32, 40_commands.md R129). -/
def Block.input (b : Block) : List Byte := firstSymbols b.ibufByte b.inputLength

/-- A command on its operand: `InputOverrun` where `ILEN > IBUF_SIZE`, before any symbol is read
(60_exceptions.md R225, 40_commands.md R129). -/
def Block.onInput (b : Block) (f : List Byte → CommandResult) : CommandResult :=
  if b.ibufSize < b.inputLength then .err .inputOverrun 0 0 else f b.input

end Sys2Proof.Machine
end

