-- ==== Sys2Proof/Machine/Control.lean ====
section
/-! DEFINITION. The immediate commands `NOP` and `CLR`, and the reserved command words. -/

namespace Sys2Proof.Machine

/-- `NOP` issued: `CMD <- 0` and nothing else (40_commands.md R125), dropped while `BUSY = 1` (R123). -/
def execNop (s : State) : Host.Outcome State Fault Refusal :=
  .next (s.withBlock (s.block.unlessBusy (s.block.record (encode .nop))))

/-- `CLR` issued: the outcome and the hazard flag are cleared (40_commands.md R126); dropped while `BUSY = 1`, and then
it sets the hazard flag (R123). -/
def execClr (s : State) : Host.Outcome State Fault Refusal :=
  .next (s.withBlock (s.block.unlessBusy (s.block.record (encode .clr)).clearOutcome.clearHazard))

/-- A reserved word issued: a launch like any other (30_encoding.md R100, 40_commands.md R127), dropped while
`BUSY = 1` (R123). The engine's completion step publishes `reservedResult`. -/
def execReserved (w : Word) (s : State) : Host.Outcome State Fault Refusal :=
  .next (s.withBlock (s.block.unlessBusy (s.block.launch w)))

/-- What the completion of a word that is no launching command publishes: `BadCommand`, tested before `ILEN` is looked
at (60_exceptions.md R224, 40_commands.md R129). -/
def reservedResult : CommandResult := .err .badCommand 0 0

end Sys2Proof.Machine
end

