-- ==== Sys2Proof/Machine/Decoder.lean ====
section
/-! DEFINITION. The decoder (42_decoder.md): the function sub-block by sub-block, and the commands `DEC` and `DECN`. -/

namespace Sys2Proof.Machine

/-- Prefix stripper: the offset of the cleaned input (42_decoder.md R182). -/
def prefixOffset (strip : Bool) (s : List Byte) : Nat :=
  if strip = true ∧ 3 ≤ s.length ∧ s.take 3 = pfx then 3 else 0

/-- Validation scan from index `i` on, in increasing order: the first symbol outside the alphabet and its index
(42_decoder.md R183). -/
def firstInvalid : Nat → List Byte → Option (Byte × Nat)
  | _, [] => none
  | i, c :: cs => if (r38 c).valid then firstInvalid (i + 1) cs else some (c, i)

/-- Length checker: the length of the last chunk for `rem = n mod 5`, none where the length is invalid
(42_decoder.md R185). -/
def lastChunkLength (rem : Nat) : Option Nat :=
  if rem = 0 then some 5 else if rem = 2 then some 2 else if rem = 4 then some 4 else none

/-- Chunk splitter: `Q = (n - last) / 5` chunks of 5 characters, then `t[5Q .. n)` (42_decoder.md R186). -/
def textChunks (t : List Byte) (last : Nat) : List (List Byte) :=
  let q := (t.length - last) / 5
  (List.range q).map (fun i => (t.drop (5 * i)).take 5) ++ [t.drop (5 * q)]

/-- Accumulator: multiply by 38 and add, from the last character of the chunk to the first (42_decoder.md R188). -/
def chunkValue (e : List Byte) : Nat := e.foldr (fun c acc => acc * 38 + digitValue c) 0

/-- Chunk-length encoder `bytesFor`; any other length is `InvalidLength` (42_decoder.md R190). -/
def bytesFor (n : Nat) : Option Nat :=
  if n = 5 then some 3 else if n = 4 then some 2 else if n = 2 then some 1 else none

/-- Byte emitter: `(value >> (8*k)) & 0xFF` for `k` in `0 .. count-1` (42_decoder.md R191). -/
def emitBytes (count value : Nat) : List Byte :=
  (List.range count).map fun k => BitVec.ofNat 8 ((value >>> (8 * k)) &&& 0xFF)

/-- One chunk's bytes (42_decoder.md R191); none where `bytesFor` has no value. -/
def decodeChunk (e : List Byte) : Option (List Byte) :=
  (bytesFor e.length).map fun count => emitBytes count (chunkValue e)

/-- All chunks' bytes in order (42_decoder.md R192). -/
def decodeChunks : List (List Byte) → Option (List Byte)
  | [] => some []
  | e :: es =>
    match decodeChunk e, decodeChunks es with
    | some out, some rest => some (out ++ rest)
    | _, _ => none

/-- The function `decode` (42_decoder.md R192), its tests in the order of R196. The last branch is the defensive
`InvalidLength` of R190, which no input reaches (log entry 10). -/
def decodeText (strip : Bool) (s : List Byte) : CommandResult :=
  let off := prefixOffset strip s
  let t := s.drop off
  match firstInvalid off t with
  | some (c, i) => .err .invalidCharacter c i
  | none =>
    if t.length = 0 then .ok []
    else
      match lastChunkLength (t.length % 5) with
      | none => .err .invalidLength 0 t.length
      | some last =>
        match decodeChunks (textChunks t last) with
        | some out => .ok out
        | none => .err .invalidLength 0 t.length

/-- What the completion of `DEC` publishes: the prefix is stripped (42_decoder.md R180, 40_commands.md R129). -/
def decResult (b : Block) : CommandResult := b.onInput (decodeText true)

/-- What the completion of `DECN` publishes: no prefix step (42_decoder.md R181, 40_commands.md R129). -/
def decnResult (b : Block) : CommandResult := b.onInput (decodeText false)

/-- `DEC` issued: a launch (42_decoder.md R180, 40_commands.md R124, R127), dropped while `BUSY = 1` (R123). The
engine's completion step publishes `decResult`. -/
def execDec (s : State) : Host.Outcome State Fault Refusal :=
  .next (s.withBlock (s.block.unlessBusy (s.block.launch (encode .dec))))

/-- `DECN` issued: a launch (42_decoder.md R181, 40_commands.md R124, R127), dropped while `BUSY = 1` (R123). The
engine's completion step publishes `decnResult`. -/
def execDecn (s : State) : Host.Outcome State Fault Refusal :=
  .next (s.withBlock (s.block.unlessBusy (s.block.launch (encode .decn))))

end Sys2Proof.Machine
end

