-- ==== Sys2Proof/Machine/Encoder.lean ====
section
/-! DEFINITION. The encoder (41_encoder.md): the function sub-block by sub-block, and the command `ENC`. -/

namespace Sys2Proof.Machine

/-- Chunker: chunk `i` is `b[3i .. min(3i+3, len(b)))`, for `i` in `0 .. ceil(len(b)/3) - 1` (41_encoder.md R151). -/
def byteChunks (b : List Byte) : List (List Byte) :=
  (List.range ((b.length + 2) / 3)).map fun i => (b.drop (3 * i)).take 3

/-- Chunk assembler: the bytes as an unsigned little-endian integer, byte 0 least significant (41_encoder.md R152). -/
def leValue : List Byte → Nat
  | [] => 0
  | v :: vs => v.toNat + 256 * leValue vs

/-- Chunk-length decoder `charsNeeded`, defined on 1, 2, 3 only (41_encoder.md R153). -/
def charsNeeded (n : Nat) : Option Nat :=
  if n = 1 then some 2 else if n = 2 then some 4 else if n = 3 then some 5 else none

/-- Modulo/divide chain: the digits of `k` stages, stage 0 first (41_encoder.md R154). -/
def chainDigits : Nat → Nat → List Digit
  | 0, _ => []
  | k + 1, v => Fin.ofNat 38 v :: chainDigits k (v / 38)

/-- One chunk's characters, least significant digit first, through the alphabet ROM (41_encoder.md R156, R157). The
chunker produces no length outside 1, 2, 3 (R153), so the last branch is never reached (log entry 10). -/
def encodeChunk (c : List Byte) : List Byte :=
  match charsNeeded c.length with
  | some k => (chainDigits k (leValue c)).map a38
  | none => []

/-- The function `encode`: all chunks' characters in chunk order (41_encoder.md R151, R158). -/
def encodeBytes (b : List Byte) : List Byte := (byteChunks b).flatMap encodeChunk

/-- What the completion of `ENC` publishes (41_encoder.md R150, 40_commands.md R129). -/
def encResult (b : Block) : CommandResult := b.onInput fun s => .ok (encodeBytes s)

/-- `ENC` issued: a launch (41_encoder.md R150, 40_commands.md R124, R127), dropped while `BUSY = 1` (R123). The
engine's completion step publishes `encResult`. -/
def execEnc (s : State) : Host.Outcome State Fault Refusal :=
  .next (s.withBlock (s.block.unlessBusy (s.block.launch (encode .enc))))

end Sys2Proof.Machine
end

