-- ==== Sys2Proof/Machine/Dispatch.lean ====
section
/-! DEFINITION. One arm per command: its meaning when the host issues it. -/

namespace Sys2Proof.Machine

def exec (i : Instr) (s : State) : Host.Outcome State Fault Refusal :=
  match i with
  | .nop => Sys2Proof.Machine.execNop s
  | .enc => Sys2Proof.Machine.execEnc s
  | .dec => Sys2Proof.Machine.execDec s
  | .decn => Sys2Proof.Machine.execDecn s
  | .clr => Sys2Proof.Machine.execClr s
  | .reserved w => Sys2Proof.Machine.execReserved w s

end Sys2Proof.Machine
end

