-- ==== Sys2Proof/Machine/Engine.lean ====
section
/-! DEFINITION. The engine: the result of the launched command and the completion step. -/

namespace Sys2Proof.Machine

/-- `exec(CMD, ILEN, IBUF)` of 40_commands.md R129. The words of `NOP` and `CLR` never launch; R129 gives them
`BadCommand` like every word outside 1, 2, 3. -/
def commandResult (b : Block) : CommandResult :=
  match decode b.cmd with
  | .enc => encResult b
  | .dec => decResult b
  | .decn => decnResult b
  | .nop => reservedResult
  | .clr => reservedResult
  | .reserved _ => reservedResult

/-- The engine's step: the completion where `BUSY = 1` (40_commands.md R128); where `BUSY = 0` the engine has no step
and nothing changes (R121). -/
def engineStep (b : Block) : Block := if b.busy then b.publish (commandResult b) else b

end Sys2Proof.Machine
end

