-- ==== Sys2Proof/Machine/Flags.lean ====
section
/-! DEFINITION. The registers as the words a host read returns, the status flags, and the interrupt output. -/

namespace Sys2Proof.Machine

/-- The number of an error code (10_state.md R30): 3 bits. -/
def ErrorCode.bits : ErrorCode → BitVec 3
  | .none => 0
  | .invalidCharacter => 1
  | .invalidLength => 2
  | .badCommand => 3
  | .inputOverrun => 4

/-- `CTRL` as read: `IE` in bit 0, the rest 0 (10_state.md R24, R36). -/
def Block.ctrlWord (b : Block) : Word := bit b.ie

/-- `STATUS` as read: `BUSY`, `DONE`, `ERR`, `HZD` in bits 0 to 3, the rest 0 (10_state.md R25, 40_commands.md R122). -/
def Block.statusWord (b : Block) : Word :=
  bit b.busy + 2#32 * bit b.done + 4#32 * bit b.err + 8#32 * bit b.hzd

/-- `ECODE` as read: the code in bits 2:0 (10_state.md R30). -/
def Block.ecodeWord (b : Block) : Word := b.ecode.bits.setWidth 32

/-- `ECHAR` as read: the symbol in bits 7:0 (10_state.md R31). -/
def Block.echarWord (b : Block) : Word := zextByte b.echar

/-- `CAP` as read: `IBUF_SIZE + 65536 * OBUF_SIZE` (10_state.md R40, 40_commands.md R122). -/
def Block.capWord (b : Block) : Word := BitVec.ofNat 32 (b.ibufSize + 65536 * b.obufSize)

/-- The interrupt output `irq = CTRL.IE & STATUS.DONE`, a level (10_state.md R35, 60_exceptions.md R231). -/
def Block.irq (b : Block) : Bool := b.ie && b.done

end Sys2Proof.Machine
end

