-- ==== Sys2Proof/Machine/HostPort.lean ====
section
/-! DEFINITION. The host port: the address map, host reads, host writes, and which agent steps next. -/

namespace Sys2Proof.Machine

/-- The locations of the address map (20_memory.md R61). -/
inductive Location
  | ctrl
  | status
  | cmd
  | ilen
  | olen
  | ecode
  | echar
  | epos
  | cap
  /-- `IBUF[i]`. -/
  | ibuf (i : Nat)
  /-- `OBUF[j]`. -/
  | obuf (j : Nat)
  | unmapped
deriving DecidableEq, Repr

/-- The word index of a byte offset (20_memory.md R60). -/
def wordIndex (byteOffset : Nat) : PortIndex := BitVec.ofNat 12 (byteOffset / 4)

/-- The registers of the address map by word index, that is byte offset / 4: 0x0000 `CTRL` to 0x0020 `CAP`, then
unmapped up to 0x0FFC (20_memory.md R61). -/
def registerAt (k : Nat) : Location :=
  if k = 0 then .ctrl
  else if k = 1 then .status
  else if k = 2 then .cmd
  else if k = 3 then .ilen
  else if k = 4 then .olen
  else if k = 5 then .ecode
  else if k = 6 then .echar
  else if k = 7 then .epos
  else if k = 8 then .cap
  else .unmapped

/-- What stands at a word index, in a block with `ibufSize` entries of `IBUF` (20_memory.md R61): byte offset 0x1000 is
word index 0x400 and 0x2000 is 0x800. -/
def locate (ibufSize : Nat) (a : PortIndex) : Location :=
  if a.toNat < 0x400 then registerAt a.toNat
  else if a.toNat < 0x800 then
    (if a.toNat - 0x400 < ibufSize then .ibuf (a.toNat - 0x400) else .unmapped)
  else
    (if a.toNat - 0x800 < Config.obufSize ibufSize then .obuf (a.toNat - 0x800) else .unmapped)

/-- The `OBUF` window: the entry below `OLEN`, 0 from there on (20_memory.md R65). -/
def Block.obufWindow (b : Block) (j : Nat) : Word :=
  if j < b.olen.toNat then zextByte (b.obufByte j) else 0

/-- The word `MemRead` returns at a location (40_commands.md R122). -/
def readLocation (b : Block) : Location → Word
  | .ctrl => b.ctrlWord
  | .status => b.statusWord
  | .cmd => b.cmd
  | .ilen => b.ilen
  | .olen => b.olen
  | .ecode => b.ecodeWord
  | .echar => b.echarWord
  | .epos => b.epos
  | .cap => b.capWord
  | .ibuf i => zextByte (b.ibufByte i)
  | .obuf j => b.obufWindow j
  | .unmapped => 0

/-- `MemRead(4*a, 4)` (40_commands.md R122): the word it returns; the block does not change. -/
def memRead (b : Block) (a : PortIndex) : Word := readLocation b (locate b.ibufSize a)

/-- A write to an entry of the `IBUF` window of a block that is not busy: a word with any of bits 31:8 set is dropped
(20_memory.md R63, R64). -/
def Block.writeSymbol (b : Block) (i : Nat) (d : Word) : Block :=
  if d.extractLsb' 8 24 ≠ 0 then b.drop else b.setIbuf i (d.extractLsb' 0 8)

/-- `MemWrite` of the word `d` at a location (40_commands.md R123). Case 1, a location that is unmapped or read-only:
dropped, whether `BUSY` is 0 or 1. Case 2, `BUSY = 1`: dropped (`unlessBusy`; for `CMD` in the command's meaning). Case
6: a write to `CMD` is the command its word decodes to (R124). -/
def writeAction (s : State) (d : Word) : Location → Action
  | .ctrl => .other (s.withBlock (s.block.unlessBusy (s.block.setIe d[0])))
  | .ilen => .other (s.withBlock (s.block.unlessBusy (s.block.setIlen d)))
  | .ibuf i => .other (s.withBlock (s.block.unlessBusy (s.block.writeSymbol i d)))
  | .cmd => .command (decode d) s
  | .status => .other (s.withBlock s.block.drop)
  | .olen => .other (s.withBlock s.block.drop)
  | .ecode => .other (s.withBlock s.block.drop)
  | .echar => .other (s.withBlock s.block.drop)
  | .epos => .other (s.withBlock s.block.drop)
  | .cap => .other (s.withBlock s.block.drop)
  | .obuf _ => .other (s.withBlock s.block.drop)
  | .unmapped => .other (s.withBlock s.block.drop)

/-- One agent step taken in a state from which it has been removed (00_scope.md R12). -/
def agentAction (s : State) : AgentStep → Action
  | .hostRead a => .other (s.reply (memRead s.block a))
  | .hostWrite a d => writeAction s d (locate s.block.ibufSize a)
  | .hostReset => .other (s.withBlock s.block.resetStep)
  | .engineCompletion => .other (s.withBlock (engineStep s.block))

/-- The next step of the machine. Where the host has no more accesses the engine takes its step, if it has one
(40_commands.md R121, R132; log entries 4, 5). -/
def nextAction (s : State) : Action :=
  match s.pending with
  | [] => .other (s.withBlock (engineStep s.block))
  | e :: rest => agentAction (s.withPending rest) e

/-- The host write that issues a command word (40_commands.md R124). -/
def issueWord (w : Word) : AgentStep := .hostWrite (wordIndex 0x0008) w

end Sys2Proof.Machine
end

