-- ==== Sys2Proof/Machine/Step.lean ====
section
/-! DEFINITION. One step of the machine, and where a command word is put for the next step to run it. -/

namespace Sys2Proof.Machine

/-- One atomic step of one agent (00_scope.md R12, 40_commands.md R120). -/
def step (s : State) : Host.Outcome State Fault Refusal :=
  match nextAction s with
  | .command i t => exec i t
  | .other t => .next t

/-- `s` with the host about to write the command word to `CMD`. The block fetches nothing (10_state.md R21): this
write is how a command reaches it (log entry 8). -/
def State.withFetchWord (s : State) (nbits w : Nat) : State :=
  { s with pending := issueWord (BitVec.ofNat 32 (w % 2 ^ nbits)) :: s.pending }

end Sys2Proof.Machine
end

