-- ==== Sys2Proof/Machine/Datapath.lean ====
section
/-! DEFINITION. The engine's hidden registers (10_state.md R34) and the micro-sequences of the encoder and the decoder
(41_encoder.md R162, 42_decoder.md R199). Nothing of this is observable (40_commands.md R131): the completion step
publishes the functions of Encoder.lean and Decoder.lean, and these sequences are the other description of them. -/

namespace Sys2Proof.Machine

/-- The hidden working registers (10_state.md R34). `RP` and `WP` are "wide enough", so numbers (log entry 7). -/
structure Hidden where
  /-- `VAL`, the encoder's chunk value. -/
  val : BitVec 24
  /-- `ACC`, the decoder's accumulator. -/
  acc : BitVec 27
  /-- `OFF`, the decoder's prefix offset. -/
  off : BitVec 2
  /-- `RP`, the read index. -/
  rp : Nat
  /-- `WP`, the write index. -/
  wp : Nat
  /-- `CL`, the length of the chunk in hand. -/
  cl : BitVec 3
deriving DecidableEq, Repr

/-- The hidden registers and the physical `OBUF` while the engine works. -/
structure Working where
  /-- The hidden registers. -/
  regs : Hidden
  /-- The physical `OBUF` as far as it has been written. -/
  obuf : Memory
deriving DecidableEq, Repr

/-- `OBUF[WP] <- v ; WP <- WP + 1`. -/
def Working.emit (w : Working) (v : Byte) : Working :=
  { regs := { w.regs with wp := w.regs.wp + 1 }, obuf := w.obuf.store w.regs.wp v }

/-- `k` chain stages: `OBUF[WP] <- A38[VAL mod 38] ; WP <- WP + 1 ; VAL <- VAL / 38` (41_encoder.md R162). -/
def encStages : Nat → Working → Working
  | 0, w => w
  | k + 1, w =>
    let e := w.emit (a38 (Fin.ofNat 38 w.regs.val.toNat))
    encStages k { e with regs := { e.regs with val := w.regs.val / 38#24 } }

/-- The chunk assembler: `VAL` from the `cl` bytes at index `rp`, as shifts and ors in 24 bits (41_encoder.md R162). -/
def assembleChunk (buf : Nat → Byte) (rp cl : Nat) : BitVec 24 :=
  (buf rp).setWidth 24
    ||| (if 2 ≤ cl then (buf (rp + 1)).setWidth 24 <<< 8 else 0)
    ||| (if cl = 3 then (buf (rp + 2)).setWidth 24 <<< 16 else 0)

/-- The loop `while RP < ILEN` of 41_encoder.md R162, for at most `fuel` chunks. -/
def encChunkLoop (buf : Nat → Byte) (ilen : Nat) : Nat → Working → Working
  | 0, w => w
  | fuel + 1, w =>
    if w.regs.rp < ilen then
      let cl := min 3 (ilen - w.regs.rp)
      let chunk := { w.regs with cl := BitVec.ofNat 3 cl, val := assembleChunk buf w.regs.rp cl }
      let e := encStages ((charsNeeded cl).getD 0) { w with regs := chunk }
      encChunkLoop buf ilen fuel { e with regs := { e.regs with rp := e.regs.rp + cl } }
    else w

/-- The encoder's micro-sequence (41_encoder.md R162). Each chunk advances `RP`, so `ilen` rounds are enough. `OLEN` is
the final `WP`. -/
def encMicro (buf : Nat → Byte) (ilen : Nat) (w : Working) : Working :=
  encChunkLoop buf ilen ilen { w with regs := { w.regs with rp := 0, wp := 0 } }

/-- How a decoder micro-sequence ends. -/
inductive MicroEnd
  /-- `publish OLEN <- WP, done`. -/
  | published
  /-- `fail` with an error, its character and its position. -/
  | failed (code : ErrorCode) (ch : Byte) (pos : Nat)
deriving DecidableEq, Repr

/-- The prefix compare that sets `OFF` (42_decoder.md R182, R199). -/
def prefixCompare (strip : Bool) (buf : Nat → Byte) (ilen : Nat) : BitVec 2 :=
  if strip = true ∧ 3 ≤ ilen ∧ buf 0 = 0x4D#8 ∧ buf 1 = 0x54#8 ∧ buf 2 = 0x3A#8 then 3 else 0

/-- Pass 1: `count` symbols from index `rp` on; the index of the first invalid one, if any (42_decoder.md R199). -/
def validationPass (buf : Nat → Byte) : Nat → Nat → Option Nat
  | 0, _ => none
  | count + 1, rp => if (r38 (buf rp)).valid then validationPass buf count (rp + 1) else some rp

/-- `for k in CL-1 downto 0: ACC <- ACC*38 + R38[IBUF[RP+k]].val`, in the 27 bits of `ACC` (42_decoder.md R199). -/
def accumulate (buf : Nat → Byte) (rp : Nat) : Nat → BitVec 27 → BitVec 27
  | 0, acc => acc
  | k + 1, acc => accumulate buf rp k (acc * 38#27 + (r38 (buf (rp + k))).val.setWidth 27)

/-- `for b in from .. from+count-1: OBUF[WP] <- (ACC >> (8*b)) & 0xFF ; WP <- WP + 1` (42_decoder.md R199). -/
def emitLoop : Nat → Nat → Working → Working
  | 0, _, w => w
  | count + 1, k, w => emitLoop count (k + 1) (w.emit ((w.regs.acc >>> (8 * k)).setWidth 8))

/-- Pass 2, the loop `while RP < ILEN` of 42_decoder.md R199, for at most `fuel` chunks. -/
def decChunkLoop (buf : Nat → Byte) (ilen : Nat) : Nat → Working → Working
  | 0, w => w
  | fuel + 1, w =>
    if w.regs.rp < ilen then
      let cl := min 5 (ilen - w.regs.rp)
      let chunk := { w.regs with cl := BitVec.ofNat 3 cl, acc := accumulate buf w.regs.rp cl 0 }
      let e := emitLoop ((bytesFor cl).getD 0) 0 { w with regs := chunk }
      decChunkLoop buf ilen fuel { e with regs := { e.regs with rp := e.regs.rp + cl } }
    else w

/-- The decoder's micro-sequence (42_decoder.md R199). On `published`, `OLEN` is the final `WP`. -/
def decMicro (strip : Bool) (buf : Nat → Byte) (ilen : Nat) (w : Working) : Working × MicroEnd :=
  let off := prefixCompare strip buf ilen
  let n := ilen - off.toNat
  let start : Working := { w with regs := { w.regs with off := off, rp := off.toNat, wp := 0 } }
  match validationPass buf n off.toNat with
  | some i => ({ w with regs := { w.regs with off := off, rp := i } }, .failed .invalidCharacter (buf i) i)
  | none =>
    if n = 0 then (start, .published)
    else if n % 5 = 1 ∨ n % 5 = 3 then
      ({ w with regs := { w.regs with off := off, rp := ilen } }, .failed .invalidLength 0 n)
    else (decChunkLoop buf ilen n start, .published)

end Sys2Proof.Machine
end

