-- ==== Sys2Proof/Machine/Transactions.lean ====
section
/-! DEFINITION. The spec's notation for what a host does: `WR`, `RD`, and the pseudo-instructions `LOAD`, `WAIT`, `RESULT`
(30_encoding.md R101, R102), as lists of agent steps. -/

namespace Sys2Proof.Machine

/-- `WR name, value` at a byte offset (30_encoding.md R101). -/
def wr (byteOffset : Nat) (value : Word) : AgentStep := .hostWrite (wordIndex byteOffset) value

/-- `RD name` at a byte offset (30_encoding.md R101). -/
def rd (byteOffset : Nat) : AgentStep := .hostRead (wordIndex byteOffset)

/-- The byte offset of `IBUF[i]` (20_memory.md R61). -/
def ibufOffset (i : Nat) : Nat := 0x1000 + 4 * i

/-- The byte offset of `OBUF[j]` (20_memory.md R61). -/
def obufOffset (j : Nat) : Nat := 0x2000 + 4 * j

/-- The symbol writes of `LOAD` from index `i` on (30_encoding.md R102). -/
def loadSymbols : Nat → List Byte → List AgentStep
  | _, [] => []
  | i, v :: vs => wr (ibufOffset i) (zextByte v) :: loadSymbols (i + 1) vs

/-- `LOAD s`: the symbols, then `WR ILEN, len` (30_encoding.md R102). -/
def loadTransactions (s : List Byte) : List AgentStep :=
  loadSymbols 0 s ++ [wr 0x000C (BitVec.ofNat 32 s.length)]

/-- `WAIT` that happens to read `STATUS` `n` times: the number is not fixed (30_encoding.md R102,
70_reset_and_hazards.md R270). -/
def waitTransactions (n : Nat) : List AgentStep := List.replicate n (rd 0x0004)

/-- `RESULT` for a result of `len` symbols (30_encoding.md R102). -/
def resultTransactions (len : Nat) : List AgentStep :=
  rd 0x0010 :: (List.range len).map fun j => rd (obufOffset j)

end Sys2Proof.Machine
end

