-- ==== Sys2Proof/Safety.lean ====
section
/-! DEFINITION. What counts as a sound state, a finished command and a clean run, in the terms the statements use. -/

namespace Sys2Proof.Machine

/-- The invariants of the flags, 10_state.md R26 (a) to (f). -/
structure Block.FlagsSound (b : Block) : Prop where
  busy_flags : b.busy = true → b.done = false ∧ b.err = false
  err_done : b.err = true → b.done = true
  err_ecode : b.err = true ↔ b.ecode ≠ .none
  err_olen : b.err = true → b.olen = 0
  busy_outcome : b.busy = true → b.olen = 0 ∧ b.ecode = .none ∧ b.echar = 0 ∧ b.epos = 0
  olen_le : b.olen.toNat ≤ b.obufSize

/-- `OLEN` and the error registers hold what the last completion recorded and 0 otherwise (10_state.md R29, R31, R39). -/
structure Block.RecordsSound (b : Block) : Prop where
  echar_zero : b.ecode ≠ .invalidCharacter → b.echar = 0
  olen_done : b.olen ≠ 0 → b.done = true
  epos_zero : b.ecode ≠ .invalidCharacter → b.ecode ≠ .invalidLength → b.epos = 0

/-- The buffers: their written entries in canonical form and inside their sizes, the size legal, and every visible
entry of `OBUF` one the engine has written (10_state.md R32, 00_scope.md R10, 20_memory.md R65). -/
structure Block.BuffersSound (b : Block) : Prop where
  size_legal : Config.legalIbufSize b.ibufSize
  ibuf_wf : b.ibuf.wf
  ibuf_within : b.ibuf.within b.ibufSize
  obuf_wf : b.obuf.wf
  obuf_within : b.obuf.within b.obufSize
  visible_written : ∀ j, j < b.olen.toNat → (b.obuf.cell? j).isSome = true

/-- A running command was launched by a launching word (40_commands.md R124, R127). -/
def Block.LaunchSound (b : Block) : Prop :=
  b.busy = true → (decode b.cmd).commandClass = .launching

/-- The invariant every step keeps, from every state that has it. -/
structure Block.Inv (b : Block) : Prop where
  flags : b.FlagsSound
  records : b.RecordsSound
  buffers : b.BuffersSound
  launch : b.LaunchSound

/-- The column "access" of 20_memory.md R61: the locations marked RW. -/
def Location.writable : Location → Bool
  | .ctrl => true
  | .cmd => true
  | .ilen => true
  | .ibuf _ => true
  | .status => false
  | .olen => false
  | .ecode => false
  | .echar => false
  | .epos => false
  | .cap => false
  | .obuf _ => false
  | .unmapped => false

/-- Whether a host write of `d` at index `a` is dropped: the causes (a) to (d) of 60_exceptions.md R230. -/
def Block.drops (b : Block) (a : PortIndex) (d : Word) : Bool :=
  !(locate b.ibufSize a).writable || b.busy ||
    (match locate b.ibufSize a with
     | .ibuf _ => d.extractLsb' 8 24 != 0
     | _ => false)

/-- A command is over (40_commands.md R132). -/
abbrev Block.commandOver (b : Block) : Prop := b.busy = false

/-- The launched command succeeded (40_commands.md R132). -/
abbrev Block.succeeded (b : Block) : Prop := b.done = true ∧ b.err = false

/-- The launched command failed (40_commands.md R132). -/
abbrev Block.failed (b : Block) : Prop := b.done = true ∧ b.err = true

/-- A run is over: the host has no more accesses and no command runs (40_commands.md R132). -/
abbrev State.runOver (s : State) : Prop := s.pending = [] ∧ s.block.commandOver

/-- The evidence that no write was dropped (40_commands.md R132). -/
abbrev State.clean (s : State) : Prop := s.block.hzd = false

/-- The result the host can read: `OBUF[0 .. OLEN)` (10_state.md R32). -/
def Block.result (b : Block) : List Byte := firstSymbols b.obufByte b.olen.toNat

/-- What a launched command's completion leaves, against the block `b` before it: the flags, the result or the error of
`r`, and `IBUF`, `ILEN`, `CTRL`, `HZD` as before (40_commands.md R128, 60_exceptions.md R227). A success shows its
output; after a failure the `OBUF` window is all 0. Of the physical `OBUF` entries that cannot be read it says nothing:
the spec leaves them open (R128, 93 U4). -/
def Block.Published (b : Block) (r : CommandResult) (c : Block) : Prop :=
  c.busy = false ∧ c.done = true ∧ c.ie = b.ie ∧ c.hzd = b.hzd ∧ c.ilen = b.ilen ∧
  (∀ i, c.ibufByte i = b.ibufByte i) ∧ c.ibufSize = b.ibufSize ∧ c.resets = b.resets ∧ c.irq = b.ie ∧
  match r with
  | .ok out =>
    c.err = false ∧ c.ecode = .none ∧ c.echar = 0 ∧ c.epos = 0 ∧
    c.olen.toNat = out.length ∧ c.result = out
  | .err code ch pos =>
    c.err = true ∧ c.ecode = code ∧ c.echar = ch ∧ c.epos.toNat = pos ∧
    c.olen = 0 ∧ ∀ j, c.obufWindow j = 0

/-- Every symbol is in the alphabet (30_encoding.md R94). -/
abbrev allValid (t : List Byte) : Prop := ∀ c ∈ t, (r38 c).valid = true

/-- The cleaned input (42_decoder.md R182). -/
def cleaned (strip : Bool) (s : List Byte) : List Byte := s.drop (prefixOffset strip s)

/-- A cleaned length the length checker accepts (42_decoder.md R185). -/
abbrev legalTextLength (n : Nat) : Prop := n % 5 = 0 ∨ n % 5 = 2 ∨ n % 5 = 4

/-- The same result with a recorded `InvalidCharacter` position `k` larger (42_decoder.md R182). -/
def shiftPosition (k : Nat) : CommandResult → CommandResult
  | .ok out => .ok out
  | .err .invalidCharacter ch pos => .err .invalidCharacter ch (pos + k)
  | .err .none ch pos => .err .none ch pos
  | .err .invalidLength ch pos => .err .invalidLength ch pos
  | .err .badCommand ch pos => .err .badCommand ch pos
  | .err .inputOverrun ch pos => .err .inputOverrun ch pos

/-- A host read at `a` is answered with `v` and changes nothing else, whatever the agents do later
(40_commands.md R122, 20_memory.md R69). -/
def State.answers (s : State) (a : PortIndex) (v : Word) : Prop :=
  ∀ rest, step (s.withPending (.hostRead a :: rest)) =
    .next { s with pending := rest, replies := s.replies ++ [v] }

/-- A host write of `d` at `a` leads to the block `b` and changes nothing else, whatever the agents do later
(40_commands.md R123). -/
def State.becomes (s : State) (a : PortIndex) (d : Word) (b : Block) : Prop :=
  ∀ rest, step (s.withPending (.hostWrite a d :: rest)) = .next { s with block := b, pending := rest }

/-- A step of the host on its port: a read or a write (40_commands.md R120). -/
def AgentStep.onPort : AgentStep → Bool
  | .hostRead _ => true
  | .hostWrite _ _ => true
  | .hostReset => false
  | .engineCompletion => false

/-- The engine is the agent that moves next: its completion stands first, or the host has no more accesses
(40_commands.md R121, log entry 4). -/
def State.engineNext (s : State) : Prop := s.pending = [] ∨ ∃ rest, s.pending = .engineCompletion :: rest

end Sys2Proof.Machine
end

