-- ==== Sys2Proof/Certificates/Slice0/Obligations.lean ====
section
/-! DEFINITION. The statements for the provers, from the numbered rules of the spec. -/

open Sys2Proof Sys2Proof.Machine

/-! ### Command words -/

/-- A host write to `CMD` runs the command its word decodes to (40_commands.md R124), on the state in which that write
is no longer pending. That a command reaches the machine as a pending step, and that `withFetchWord` places exactly
such a write, is the model's choice (log entries 4, 8). -/
def Obligations.StepRunsTheDecodedCommand : Prop :=
  ∀ (s : Machine.State) (w : Word) (rest : List AgentStep),
    (s.pending = issueWord w :: rest → step s = exec (decode w) { s with pending := rest }) ∧
    step (s.withFetchWord 32 w.toNat) = exec (decode w) s

/-- Decoding the word of a well-formed command gives the command back. -/
def Obligations.DecodeOfEncodeIsTheCommand : Prop :=
  ∀ i : Instr, i.wellFormed = true → decode (encode i) = i

/-- Every word decodes to a well-formed command whose word it is. -/
def Obligations.EncodeOfDecodeIsTheWord : Prop :=
  ∀ w : Word, encode (decode w) = w ∧ (decode w).wellFormed = true

/-- The five assigned words, and a few reserved ones of the rows K8 to K10 of 95_test_vectors.md, written out. -/
def Obligations.WrittenOutWordsDecode : Prop :=
  decode 0b00000000000000000000000000000000#32 = .nop ∧
  decode 0b00000000000000000000000000000001#32 = .enc ∧
  decode 0b00000000000000000000000000000010#32 = .dec ∧
  decode 0b00000000000000000000000000000011#32 = .decn ∧
  decode 0b00000000000000000000000000000100#32 = .clr ∧
  decode 0x00000005#32 = .reserved 5 ∧
  decode 0x00000101#32 = .reserved 0x101 ∧
  decode 0x80000000#32 = .reserved 0x80000000

/-- The reserved words by their fields: `op` in 5..255 with any `zero`, and `op` in 0..4 with `zero` not 0
(30_encoding.md R100). -/
def Obligations.ReservedWordsByField : Prop :=
  ∀ w : Word, decode w = .reserved w ↔ (5 ≤ (opField w).toNat ∨ zeroField w ≠ 0)

/-- The content of the alphabet ROM, in closed form (30_encoding.md R92), and the reverse table as its inverse and as R94
writes it out: the valid codes are exactly the alphabet's, and invalid codes have the value 0. -/
def Obligations.ReverseTableInvertsAlphabet : Prop :=
  (∀ v : Digit, (v.val < 10 → (a38 v).toNat = 0x30 + v.val) ∧
    (10 ≤ v.val → v.val < 36 → (a38 v).toNat = 0x37 + v.val)) ∧
  a38 36 = 0x2D#8 ∧ a38 37 = 0x2E#8 ∧
  (∀ c : Byte, (r38 c).valid = true ↔
    c = 0x2D#8 ∨ c = 0x2E#8 ∨ (0x30 ≤ c.toNat ∧ c.toNat ≤ 0x39) ∨ (0x41 ≤ c.toNat ∧ c.toNat ≤ 0x5A)) ∧
  (∀ (c : Byte) (v : Digit), ((r38 c).valid = true ∧ (r38 c).val.toNat = v.val) ↔ a38 v = c) ∧
  (∀ c : Byte, (r38 c).valid = true ↔ ∃ v : Digit, a38 v = c) ∧
  (∀ c : Byte, (r38 c).valid = false → (r38 c).val = 0) ∧
  (∀ u v : Digit, a38 u = a38 v → u = v)

/-! ### The encoder -/

/-- One chunk through the encoder: its value is little-endian (41_encoder.md R152), the chain's digits hold the whole value
and nothing is left after the last used stage (R153 to R155), and its characters are the digits through the alphabet ROM,
the least significant first (R156, R157). -/
def Obligations.DivideChainHoldsTheWholeValue : Prop :=
  ∀ c : List Byte, 1 ≤ c.length → c.length ≤ 3 →
    ∃ k, charsNeeded c.length = some k ∧ (chainDigits k (leValue c)).length = k ∧ leValue c / 38 ^ k = 0 ∧
      leValue c = (c.zipIdx.map fun p => p.1.toNat * 256 ^ p.2).sum ∧
      leValue c = ((chainDigits k (leValue c)).zipIdx.map fun p => p.1.val * 38 ^ p.2).sum ∧
      encodeBytes c = (chainDigits k (leValue c)).map a38

/-- Chunks are encoded independently of each other, in order (41_encoder.md R151). -/
def Obligations.ByteChunksEncodeIndependently : Prop :=
  ∀ b rest : List Byte, b.length % 3 = 0 → encodeBytes (b ++ rest) = encodeBytes b ++ encodeBytes rest

/-- The length law of the encoder (41_encoder.md R159). -/
def Obligations.EncodeLengthLaw : Prop :=
  ∀ b : List Byte, (encodeBytes b).length = Config.encLen b.length ∧
    Config.encLen b.length =
      5 * (b.length / 3) + (if b.length % 3 = 1 then 2 else if b.length % 3 = 2 then 4 else 0) ∧
    (Config.encLen b.length % 5 = 0 ∨ Config.encLen b.length % 5 = 2 ∨ Config.encLen b.length % 5 = 4)

/-- Every symbol of an encoding is one of the 38 codes of the alphabet ROM (41_encoder.md R161). -/
def Obligations.EncodeStaysInTheAlphabet : Prop :=
  ∀ (b : List Byte) (x : Byte), x ∈ encodeBytes b → ∃ v : Digit, a38 v = x

/-- `encode` is injective, but not onto the strings `decode` accepts, and `decode` is not injective (41_encoder.md R164,
42_decoder.md R195): with and without the prefix step, some text of alphabet characters alone, so without a prefix,
decodes to bytes whose encoding is another text, and it is no encoding. -/
def Obligations.EncodeIsInjectiveNotOnto : Prop :=
  (∀ b c : List Byte, encodeBytes b = encodeBytes c → b = c) ∧
  ∀ strip : Bool, ∃ t u out : List Byte, allValid t ∧ t ≠ u ∧ decodeText strip t = .ok out ∧
    decodeText strip u = .ok out ∧ encodeBytes out = u ∧ ∀ b, encodeBytes b ≠ t

/-! ### The decoder -/

/-- `decode` is a left inverse of `encode`, with and without the prefix step (42_decoder.md R194). -/
def Obligations.DecodeInvertsEncode : Prop :=
  ∀ (b : List Byte) (strip : Bool), decodeText strip (encodeBytes b) = .ok b

/-- The prefix ROM (30_encoding.md R95) and the prefix stripper (42_decoder.md R182, R181): `DEC` on `MT:` and a string is
`DECN` on the string, positions 3 larger; without the prefix the two agree; `DECN` reports the colon. -/
def Obligations.PrefixIsStrippedAtMostOnce : Prop :=
  pfx = [0x4D#8, 0x54#8, 0x3A#8] ∧
  (∀ p : List Byte, decodeText true (pfx ++ p) = shiftPosition 3 (decodeText false p)) ∧
  (∀ s : List Byte, s.take 3 ≠ pfx → decodeText true s = decodeText false s) ∧
  (∀ p : List Byte, decodeText false (pfx ++ p) = .err .invalidCharacter 0x3A 2)

/-- The validation scan reports the first offender of the cleaned input, with its index in the input, and nothing else
makes this error (42_decoder.md R183, 60_exceptions.md R222). -/
def Obligations.InvalidCharacterIsTheFirstOffender : Prop :=
  ∀ (strip : Bool) (s : List Byte) (c : Byte) (i : Nat),
    decodeText strip s = .err .invalidCharacter c i ↔
      (prefixOffset strip s ≤ i ∧ s[i]? = some c ∧ (r38 c).valid = false ∧
        ∀ (k : Nat) (d : Byte), prefixOffset strip s ≤ k → k < i → s[k]? = some d → (r38 d).valid = true)

/-- The length error is exactly a bad cleaned length of an otherwise valid input, and records that length; no chunk
length makes it (42_decoder.md R185, R190, 60_exceptions.md R223). -/
def Obligations.InvalidLengthIsTheCleanedCount : Prop :=
  ∀ (strip : Bool) (s : List Byte) (c : Byte) (n : Nat),
    decodeText strip s = .err .invalidLength c n ↔
      (c = 0 ∧ n = (cleaned strip s).length ∧ allValid (cleaned strip s) ∧ (n % 5 = 1 ∨ n % 5 = 3))

/-- Decoding succeeds exactly on valid input of a legal length, and then with the length law's number of bytes
(42_decoder.md R198, R192). -/
def Obligations.DecodeSucceedsExactlyOnValidText : Prop :=
  ∀ (strip : Bool) (s : List Byte),
    ((∃ out, decodeText strip s = .ok out) ↔
      (allValid (cleaned strip s) ∧ legalTextLength (cleaned strip s).length)) ∧
    ∀ out, decodeText strip s = .ok out →
      out.length = Config.decLen (cleaned strip s).length ∧
      out.length = 3 * ((cleaned strip s).length / 5) +
        (if (cleaned strip s).length % 5 = 2 then 1 else if (cleaned strip s).length % 5 = 4 then 2 else 0)

/-- Chunks are decoded independently of each other, in order (42_decoder.md R186, R192). -/
def Obligations.TextChunksDecodeIndependently : Prop :=
  ∀ (t rest out outRest : List Byte), t.length % 5 = 0 → decodeText false t = .ok out →
    decodeText false rest = .ok outRest → decodeText false (t ++ rest) = .ok (out ++ outRest)

/-- The accumulator's value is the weighted sum of the digits, below 38 to the number of characters (42_decoder.md R188,
R189). -/
def Obligations.AccumulatorIsTheWeightedSum : Prop :=
  ∀ e : List Byte, chunkValue e = (e.zipIdx.map fun p => digitValue p.1 * 38 ^ p.2).sum ∧
    chunkValue e < 38 ^ e.length

/-- Chunk values that do not fit their bytes are cut to the low bytes, and the command succeeds (42_decoder.md R193). -/
def Obligations.OverRangeChunksAreTruncated : Prop :=
  ∀ (strip : Bool) (e : List Byte) (n : Nat), allValid e → bytesFor e.length = some n →
    ∃ out, decodeText strip e = .ok out ∧ out.length = n ∧ leValue out = chunkValue e % 256 ^ n

/-- The two length mappings, their values (41_encoder.md R153, 42_decoder.md R190), and that they are inverse to each
other, so `decLen(encLen(n)) = n` (00_scope.md R11). -/
def Obligations.LengthMappingsAreInverse : Prop :=
  (charsNeeded 1 = some 2 ∧ charsNeeded 2 = some 4 ∧ charsNeeded 3 = some 5) ∧
  (∀ n k : Nat, charsNeeded n = some k → n = 1 ∨ n = 2 ∨ n = 3) ∧
  (∀ n k : Nat, charsNeeded n = some k ↔ bytesFor k = some n) ∧ ∀ n : Nat, Config.decLen (Config.encLen n) = n

/-! ### The commands as the host issues them -/

/-- `NOP` records its word and changes nothing else; while busy it is a dropped write (40_commands.md R125). -/
def Obligations.NopOnlyRecordsItsWord : Prop :=
  ∀ s : Machine.State,
    (s.block.busy = false → exec .nop s = .next { s with block := { s.block with cmd := 0 } }) ∧
    (s.block.busy = true → exec .nop s = .next { s with block := { s.block with hzd := true } })

/-- `CLR` clears the outcome and the hazard flag and nothing else, so that the interrupt is off and the `OBUF` window
reads 0; while busy it is dropped and sets the hazard flag (40_commands.md R126). -/
def Obligations.ClrClearsOutcomeAndHazard : Prop :=
  ∀ s : Machine.State,
    (s.block.busy = false → ∃ t, exec .clr s = .next t ∧
      t = { s with block := { s.block with
              cmd := 4, done := false, err := false, hzd := false,
              olen := 0, ecode := .none, echar := 0, epos := 0 } } ∧
      t.block.irq = false ∧ (∀ j, t.block.obufWindow j = 0) ∧
      (∀ i, t.block.ibufByte i = s.block.ibufByte i) ∧ ∀ j, t.block.obufByte j = s.block.obufByte j) ∧
    (s.block.busy = true → exec .clr s = .next { s with block := { s.block with hzd := true } })

/-- `ENC`, `DEC`, `DECN` and every reserved word launch: the same assignments, whatever `ILEN` and the buffers hold
(40_commands.md R127). The physical `OBUF` is as before, since only a completion writes it (10_state.md R32). -/
def Obligations.LaunchingCommandsLaunch : Prop :=
  ∀ (i : Instr) (s : Machine.State), i.wellFormed = true → i.commandClass = .launching → s.block.busy = false →
    ∃ t, exec i s = .next t ∧
      t = { s with block := { s.block with
              cmd := encode i, busy := true, done := false, err := false,
              olen := 0, ecode := .none, echar := 0, epos := 0 } } ∧
      t.block.irq = false ∧ (∀ j, t.block.obufWindow j = 0) ∧
      (∀ k, t.block.ibufByte k = s.block.ibufByte k) ∧ ∀ j, t.block.obufByte j = s.block.obufByte j

/-- Any command issued while one runs is dropped: only the hazard flag is set, nothing is queued (40_commands.md R123,
70_reset_and_hazards.md R264). -/
def Obligations.CommandsWhileBusyAreDropped : Prop :=
  ∀ (i : Instr) (s : Machine.State), s.block.busy = true →
    exec i s = .next { s with block := { s.block with hzd := true } }

/-- `ENC` from its issue to its completion: the launch, and the completion step, named next in the list of coming steps,
publishing the encoding of the first `ILEN` bytes of `IBUF`, or `InputOverrun` (41_encoder.md R150). The completion with
nothing in the list is in `EngineStepsOnlyWhileBusy`; the physical `OBUF` beside the output is in
`UnreadableOutputEntriesKeepTheirContent`. -/
def Obligations.EncEndsWithTheEncoding : Prop :=
  ∀ (s : Machine.State) (rest : List AgentStep), s.block.busy = false → Config.legalIbufSize s.block.ibufSize →
    s.pending = .engineCompletion :: rest →
    ∃ t u, exec .enc s = .next t ∧ t.block.busy = true ∧ t.block.done = false ∧ t.block.err = false ∧
      step t = .next u ∧ u.pending = rest ∧ u.replies = s.replies ∧ u.block.cmd = 1 ∧
      s.block.Published
        (if s.block.ilen.toNat ≤ s.block.ibufSize
          then .ok (encodeBytes ((List.range s.block.ilen.toNat).map s.block.ibufByte))
          else .err .inputOverrun 0 0) u.block

/-- `DEC` from its issue to its completion, named next in the list of coming steps: the decoding with the prefix step, or
`InputOverrun` (42_decoder.md R180). -/
def Obligations.DecEndsWithTheDecoding : Prop :=
  ∀ (s : Machine.State) (rest : List AgentStep), s.block.busy = false → Config.legalIbufSize s.block.ibufSize →
    s.pending = .engineCompletion :: rest →
    ∃ t u, exec .dec s = .next t ∧ t.block.busy = true ∧ t.block.done = false ∧ t.block.err = false ∧
      step t = .next u ∧ u.pending = rest ∧ u.replies = s.replies ∧ u.block.cmd = 2 ∧
      s.block.Published
        (if s.block.ilen.toNat ≤ s.block.ibufSize
          then decodeText true ((List.range s.block.ilen.toNat).map s.block.ibufByte)
          else .err .inputOverrun 0 0) u.block

/-- `DECN` from its issue to its completion, named next in the list of coming steps: the decoding without the prefix step,
or `InputOverrun` (42_decoder.md R181). -/
def Obligations.DecnEndsWithThePlainDecoding : Prop :=
  ∀ (s : Machine.State) (rest : List AgentStep), s.block.busy = false → Config.legalIbufSize s.block.ibufSize →
    s.pending = .engineCompletion :: rest →
    ∃ t u, exec .decn s = .next t ∧ t.block.busy = true ∧ t.block.done = false ∧ t.block.err = false ∧
      step t = .next u ∧ u.pending = rest ∧ u.replies = s.replies ∧ u.block.cmd = 3 ∧
      s.block.Published
        (if s.block.ilen.toNat ≤ s.block.ibufSize
          then decodeText false ((List.range s.block.ilen.toNat).map s.block.ibufByte)
          else .err .inputOverrun 0 0) u.block

/-- A reserved word from its issue to its completion, named next in the list of coming steps: `BadCommand`, whatever `ILEN`
holds, the word left in `CMD` (60_exceptions.md R224). -/
def Obligations.ReservedWordEndsWithBadCommand : Prop :=
  ∀ (s : Machine.State) (w : Word) (rest : List AgentStep), isReservedWord w = true → s.block.busy = false →
    s.pending = .engineCompletion :: rest →
    ∃ t u, exec (.reserved w) s = .next t ∧ t.block.busy = true ∧ t.block.done = false ∧ t.block.err = false ∧
      step t = .next u ∧ u.pending = rest ∧ u.replies = s.replies ∧ u.block.cmd = w ∧
      s.block.Published (.err .badCommand 0 0) u.block

/-! ### The engine -/

/-- The result of a launched command is this function of the command word, `ILEN` and the first `ILEN` entries of `IBUF`,
and of nothing else (40_commands.md R129). -/
def Obligations.ResultIsAFunctionOfWordLengthInput : Prop :=
  (∀ b : Block,
    (b.cmd ≠ 1 → b.cmd ≠ 2 → b.cmd ≠ 3 → commandResult b = .err .badCommand 0 0) ∧
    ((b.cmd = 1 ∨ b.cmd = 2 ∨ b.cmd = 3) → b.ibufSize < b.ilen.toNat →
      commandResult b = .err .inputOverrun 0 0) ∧
    (b.ilen.toNat ≤ b.ibufSize →
      (b.cmd = 1 → commandResult b = .ok (encodeBytes ((List.range b.ilen.toNat).map b.ibufByte))) ∧
      (b.cmd = 2 → commandResult b = decodeText true ((List.range b.ilen.toNat).map b.ibufByte)) ∧
      (b.cmd = 3 → commandResult b = decodeText false ((List.range b.ilen.toNat).map b.ibufByte)))) ∧
  ∀ b c : Block, b.cmd = c.cmd → b.ilen = c.ilen → b.ibufSize = c.ibufSize →
    (∀ i, i < b.ilen.toNat → b.ibufByte i = c.ibufByte i) → commandResult b = commandResult c

/-- The output of any command fits `OBUF` (40_commands.md R130). -/
def Obligations.OutputAlwaysFits : Prop :=
  ∀ (b : Block) (out : List Byte), commandResult b = .ok out → out.length ≤ Config.encLen b.ibufSize

/-- The completion step of a running command in a sound state, named next in the list of coming steps, publishes its
result, in one step (40_commands.md R128, 60_exceptions.md R227). -/
def Obligations.CompletionPublishesTheResult : Prop :=
  ∀ (s : Machine.State) (rest : List AgentStep), s.block.Inv → s.block.busy = true →
    s.pending = .engineCompletion :: rest →
    ∃ u, step s = .next u ∧ u.pending = rest ∧ u.replies = s.replies ∧ u.block.cmd = s.block.cmd ∧
      s.block.Published (commandResult s.block) u.block

/-- One command reports one error, the first in the order `BadCommand`, `InputOverrun`, `InvalidCharacter` at the lowest
index, `InvalidLength` (60_exceptions.md R226). -/
def Obligations.ErrorPriority : Prop :=
  ∀ b : Block, ∀ strip : Bool,
    ((isReservedWord b.cmd = true → commandResult b = .err .badCommand 0 0) ∧
     ((b.cmd = 1 ∨ b.cmd = 2 ∨ b.cmd = 3) → b.ibufSize < b.ilen.toNat →
       commandResult b = .err .inputOverrun 0 0) ∧
     (b.cmd = (if strip then 2 else 3) → b.ilen.toNat ≤ b.ibufSize →
       (∀ i, prefixOffset strip b.input ≤ i → i < b.ilen.toNat → (r38 (b.ibufByte i)).valid = false →
         (∀ k, prefixOffset strip b.input ≤ k → k < i → (r38 (b.ibufByte k)).valid = true) →
         commandResult b = .err .invalidCharacter (b.ibufByte i) i) ∧
       ((∀ k, prefixOffset strip b.input ≤ k → k < b.ilen.toNat → (r38 (b.ibufByte k)).valid = true) →
         ¬ legalTextLength (b.ilen.toNat - prefixOffset strip b.input) →
         commandResult b = .err .invalidLength 0 (b.ilen.toNat - prefixOffset strip b.input))))

/-- THE MODEL'S CHOICE of how the agents are scheduled (log entries 4, 5), within 40_commands.md R121: where `BUSY = 0` the
engine changes nothing, so an idle machine stutters and a completion placed there is passed over; where the host has no
more accesses a running command completes, and the step is the one that a named completion takes. -/
def Obligations.EngineStepsOnlyWhileBusy : Prop :=
  (∀ s : Machine.State, s.block.busy = false → s.pending = [] → step s = .next s) ∧
  (∀ (s : Machine.State) (rest : List AgentStep), s.block.busy = false → s.pending = .engineCompletion :: rest →
    step s = .next { s with pending := rest }) ∧
  (∀ s : Machine.State, s.block.busy = true → s.pending = [] → ∃ t, step s = .next t ∧ t.block.busy = false ∧
    t.block.done = true) ∧
  (∀ s : Machine.State, s.pending = [] → step s = step (s.withPending [.engineCompletion]))

/-! ### The host port -/

/-- What a host read returns at every offset, the block and all else unchanged (40_commands.md R122), `ECODE` as the number
of each error (10_state.md R30, 60_exceptions.md R221). -/
def Obligations.HostReadTable : Prop :=
  ∀ s : Machine.State,
    s.answers (wordIndex 0x0000) (BitVec.ofNat 32 s.block.ie.toNat) ∧
    s.answers (wordIndex 0x0004) (BitVec.ofNat 32
      (s.block.busy.toNat + 2 * s.block.done.toNat + 4 * s.block.err.toNat + 8 * s.block.hzd.toNat)) ∧
    s.answers (wordIndex 0x0008) s.block.cmd ∧
    s.answers (wordIndex 0x000C) s.block.ilen ∧
    s.answers (wordIndex 0x0010) s.block.olen ∧
    ((s.block.ecode = .none → s.answers (wordIndex 0x0014) 0) ∧
      (s.block.ecode = .invalidCharacter → s.answers (wordIndex 0x0014) 1) ∧
      (s.block.ecode = .invalidLength → s.answers (wordIndex 0x0014) 2) ∧
      (s.block.ecode = .badCommand → s.answers (wordIndex 0x0014) 3) ∧
      (s.block.ecode = .inputOverrun → s.answers (wordIndex 0x0014) 4)) ∧
    s.answers (wordIndex 0x0018) (s.block.echar.setWidth 32) ∧
    s.answers (wordIndex 0x001C) s.block.epos ∧
    s.answers (wordIndex 0x0020)
      (BitVec.ofNat 32 (s.block.ibufSize + 65536 * Config.encLen s.block.ibufSize)) ∧
    (∀ i, i < s.block.ibufSize → i < 1024 →
      s.answers (wordIndex (0x1000 + 4 * i)) ((s.block.ibufByte i).setWidth 32)) ∧
    (∀ j, j < Config.encLen s.block.ibufSize → j < 2048 →
      s.answers (wordIndex (0x2000 + 4 * j))
        (if j < s.block.olen.toNat then (s.block.obufByte j).setWidth 32 else 0)) ∧
    (∀ k, 0x0024 ≤ 4 * k → 4 * k < 0x1000 → s.answers (wordIndex (4 * k)) 0) ∧
    (∀ i, s.block.ibufSize ≤ i → i < 1024 → s.answers (wordIndex (0x1000 + 4 * i)) 0) ∧
    (∀ j, Config.encLen s.block.ibufSize ≤ j → j < 2048 → s.answers (wordIndex (0x2000 + 4 * j)) 0)

/-- What a host write does at every offset, case by case (40_commands.md R123): the first case that applies. -/
def Obligations.HostWriteTable : Prop :=
  ∀ (s : Machine.State) (d : Word),
    (∀ off, off ∈ [0x0004, 0x0010, 0x0014, 0x0018, 0x001C, 0x0020] →
      s.becomes (wordIndex off) d { s.block with hzd := true }) ∧
    (∀ k, 0x0024 ≤ 4 * k → 4 * k < 0x1000 → s.becomes (wordIndex (4 * k)) d { s.block with hzd := true }) ∧
    (∀ i, s.block.ibufSize ≤ i → i < 1024 →
      s.becomes (wordIndex (0x1000 + 4 * i)) d { s.block with hzd := true }) ∧
    (∀ j, j < 2048 → s.becomes (wordIndex (0x2000 + 4 * j)) d { s.block with hzd := true }) ∧
    (s.block.busy = true →
      (∀ off, off ∈ [0x0000, 0x0008, 0x000C] → s.becomes (wordIndex off) d { s.block with hzd := true }) ∧
      (∀ i, i < 1024 → s.becomes (wordIndex (0x1000 + 4 * i)) d { s.block with hzd := true })) ∧
    (s.block.busy = false →
      s.becomes (wordIndex 0x0000) d { s.block with ie := d[0] } ∧
      s.becomes (wordIndex 0x000C) d { s.block with ilen := d } ∧
      (∀ rest, step (s.withPending (.hostWrite (wordIndex 0x0008) d :: rest)) =
        exec (decode d) { s with pending := rest }) ∧
      (∀ i, i < s.block.ibufSize → i < 1024 → 256 ≤ d.toNat →
        s.becomes (wordIndex (0x1000 + 4 * i)) d { s.block with hzd := true }) ∧
      (∀ i, i < s.block.ibufSize → i < 1024 → d.toNat < 256 →
        ∃ m, s.becomes (wordIndex (0x1000 + 4 * i)) d { s.block with ibuf := m } ∧
          ({ s.block with ibuf := m } : Block).ibufByte i = BitVec.ofNat 8 d.toNat ∧
          ∀ j, j ≠ i → ({ s.block with ibuf := m } : Block).ibufByte j = s.block.ibufByte j))

/-- A host write to `CTRL`, `ILEN` or the `IBUF` window done twice is done once (20_memory.md R69 (d)). -/
def Obligations.RepeatedWritesAreIdempotent : Prop :=
  ∀ (s : Machine.State) (a : PortIndex) (d : Word) (b : Block), a ≠ wordIndex 0x0008 →
    s.becomes a d b → ({ s with block := b } : Machine.State).becomes a d b

/-- The hazard flag (60_exceptions.md R230): every dropped write sets it and does nothing else; it is set in no other way;
only `CLR` and reset clear it; no command's result depends on it. -/
def Obligations.HazardFlagRecordsDroppedWrites : Prop :=
  (∀ (s : Machine.State) (a : PortIndex) (d : Word), s.block.drops a d = true →
    s.becomes a d { s.block with hzd := true }) ∧
  (∀ s t : Machine.State, step s = .next t → s.block.hzd = false → t.block.hzd = true →
    ∃ a d rest, s.pending = .hostWrite a d :: rest ∧ s.block.drops a d = true) ∧
  (∀ s t : Machine.State, step s = .next t → s.block.hzd = true → t.block.hzd = false →
    (∃ rest, s.pending = .hostReset :: rest) ∨
    (s.block.busy = false ∧ ∃ rest, s.pending = issueWord 4 :: rest)) ∧
  ∀ (b : Block) (h : Bool), commandResult { b with hzd := h } = commandResult b

/-- While a command runs, after an error, after `CLR` and after reset the whole `OBUF` window reads 0, and after a success
it reads 0 from `OLEN` on: in any sound state the host can read output only of a command that succeeded (20_memory.md
R65, 42_decoder.md R197). -/
def Obligations.NoPartialOutputIsReadable : Prop :=
  ∀ (s : Machine.State) (j : Nat), s.block.Inv → j < 2048 →
    (s.block.busy = true ∨ s.block.err = true ∨ s.block.done = false ∨ s.block.olen.toNat ≤ j) →
    s.answers (wordIndex (0x2000 + 4 * j)) 0

/-! ### Rules over every step -/

/-- No access and no command stops the machine: every step has a next state (20_memory.md R62, 40_commands.md R121). -/
def Obligations.EveryStepHasANextState : Prop :=
  ∀ s : Machine.State, ∃ t, step s = .next t

/-- The flags of `STATUS`, by what sets and clears them (10_state.md R25). -/
def Obligations.StatusFlagsChangeOnlyAsTabled : Prop :=
  ∀ s t : Machine.State, step s = .next t →
    (s.block.busy = false → t.block.busy = true →
      ∃ w rest, s.pending = issueWord w :: rest ∧ (decode w).commandClass = .launching) ∧
    (s.block.busy = true → t.block.busy = false → s.engineNext ∨ ∃ rest, s.pending = .hostReset :: rest) ∧
    (s.block.done = false → t.block.done = true → s.engineNext ∧ s.block.busy = true) ∧
    (s.block.err = false → t.block.err = true →
      s.engineNext ∧ s.block.busy = true ∧ ∃ code ch pos, commandResult s.block = .err code ch pos) ∧
    ((s.block.done = true ∧ t.block.done = false) ∨ (s.block.err = true ∧ t.block.err = false) →
      (∃ rest, s.pending = .hostReset :: rest) ∨
      (s.block.busy = false ∧ ∃ w rest, s.pending = issueWord w :: rest ∧
        (w = 4 ∨ (decode w).commandClass = .launching)))

/-- `CMD` reads as the last accepted word (10_state.md R27). -/
def Obligations.CmdHoldsTheLastAcceptedWord : Prop :=
  ∀ s t : Machine.State, step s = .next t →
    (∀ w rest, s.pending = issueWord w :: rest → s.block.busy = false → t.block.cmd = w) ∧
    (∀ rest, s.pending = .hostReset :: rest → t.block.cmd = 0) ∧
    (t.block.cmd ≠ s.block.cmd →
      (∃ w rest, s.pending = issueWord w :: rest ∧ s.block.busy = false) ∨
      ∃ rest, s.pending = .hostReset :: rest)

/-- The inputs change only by the host, `OBUF` only by a completion, `IBUF_SIZE` never (10_state.md R28, R32, R40). An entry
of `IBUF` that nothing has written holds one value until it is written or a reset comes (R37). -/
def Obligations.BuffersAndInputsChangeOnlyByTheirWriter : Prop :=
  ∀ s t : Machine.State, step s = .next t →
    t.block.ibufSize = s.block.ibufSize ∧
    ((∃ rest, s.pending = .hostReset :: rest) ∨
      (t.block.ie ≠ s.block.ie →
        s.block.busy = false ∧ ∃ d rest, s.pending = .hostWrite (wordIndex 0x0000) d :: rest) ∧
      (t.block.ilen ≠ s.block.ilen →
        s.block.busy = false ∧ ∃ d rest, s.pending = .hostWrite (wordIndex 0x000C) d :: rest) ∧
      (∀ i, t.block.ibufByte i ≠ s.block.ibufByte i →
        s.block.busy = false ∧ i < s.block.ibufSize ∧
          ∃ d rest, s.pending = .hostWrite (wordIndex (0x1000 + 4 * i)) d :: rest ∧ d.toNat < 256) ∧
      ∀ j, t.block.obufByte j ≠ s.block.obufByte j →
        s.engineNext ∧ s.block.busy = true)

/-- The interrupt output rises only by a completion with interrupts enabled, or by enabling them while a completion is
pending; it falls only by disabling them, `CLR`, a launch or reset (60_exceptions.md R231). -/
def Obligations.InterruptFollowsCompletionAndEnable : Prop :=
  ∀ s t : Machine.State, step s = .next t →
    (s.block.irq = false → t.block.irq = true →
      (s.engineNext ∧ s.block.busy = true ∧ s.block.ie = true) ∨
      (s.block.done = true ∧ ∃ d rest, s.pending = .hostWrite (wordIndex 0x0000) d :: rest ∧ d[0] = true)) ∧
    (s.block.irq = true → t.block.irq = false →
      (∃ rest, s.pending = .hostReset :: rest) ∨
      (∃ d rest, s.pending = .hostWrite (wordIndex 0x0000) d :: rest ∧ d[0] = false ∧
        t.block.done = s.block.done) ∨
      ∃ w rest, s.pending = issueWord w :: rest ∧ (w = 4 ∨ (decode w).commandClass = .launching))

/-- While a command runs the host's reads and writes change nothing but the hazard flag, however many there are, and the
completion publishes what it would have published at once (20_memory.md R73, R74). -/
def Obligations.HostAccessesCannotDisturbARunningCommand : Prop :=
  ∀ (s : Machine.State) (p rest : List AgentStep), s.block.busy = true → (∀ e ∈ p, e.onPort = true) →
    s.pending = p ++ .engineCompletion :: rest →
    ∃ (t u v : Machine.State) (h : Bool), Sys2Proof.core.run p.length s = .next t ∧
      t.block = { s.block with hzd := h } ∧ step t = .next u ∧ u.pending = rest ∧
      step { s with pending := .engineCompletion :: rest } = .next v ∧ u.block = { v.block with hzd := h }

/-- The invariant of the flags, the registers and the buffers is kept by every step from every state that has it
(10_state.md R26). -/
def Obligations.EveryStepKeepsTheInvariant : Prop :=
  ∀ s t : Machine.State, s.block.Inv → step s = .next t → t.block.Inv

/-! ### Reset -/

/-- The state after reset has the invariant and the spec's values, in every legal configuration (10_state.md R37, R40);
`State.reset` is the reference configuration, the model's choice of log entry 1. -/
def Obligations.ResetStateIsSound : Prop :=
  (∀ n : Nat, Config.legalIbufSize n → (Block.afterReset n).Inv ∧ (Block.afterReset n).ctrlWord = 0 ∧
    (Block.afterReset n).statusWord = 0 ∧ (Block.afterReset n).cmd = 0 ∧ (Block.afterReset n).ilen = 0 ∧
    (Block.afterReset n).olen = 0 ∧ (Block.afterReset n).ecodeWord = 0 ∧ (Block.afterReset n).echarWord = 0 ∧
    (Block.afterReset n).epos = 0 ∧ (Block.afterReset n).irq = false ∧ (Block.afterReset n).ibufSize = n) ∧
  State.reset.block = Block.afterReset 1024 ∧ State.reset.block.capWord = 0x06AB0400

/-- The reset step, from any state (70_reset_and_hazards.md R261). Of `IBUF` and `OBUF` nothing is said. -/
def Obligations.ResetStepClearsEveryRegister : Prop :=
  ∀ (s : Machine.State) (rest : List AgentStep), s.pending = .hostReset :: rest →
    ∃ t, step s = .next t ∧ t.pending = rest ∧ t.replies = s.replies ∧
      t.block.ie = false ∧ t.block.busy = false ∧ t.block.done = false ∧ t.block.err = false ∧
      t.block.hzd = false ∧ t.block.cmd = 0 ∧ t.block.ilen = 0 ∧ t.block.olen = 0 ∧ t.block.ecode = .none ∧
      t.block.echar = 0 ∧ t.block.epos = 0 ∧ t.block.irq = false ∧ t.block.capWord = s.block.capWord ∧
      ∀ j, t.block.obufWindow j = 0

/-- A reset while a command runs abandons it: however long the engine is given after it, nothing is published
(70_reset_and_hazards.md R266). That a completion named while `BUSY = 0` is passed over as a step that changes nothing is
the model's choice (log entry 5). -/
def Obligations.ResetAbandonsTheRunningCommand : Prop :=
  ∀ (s : Machine.State) (n : Nat) (rest : List AgentStep),
    s.pending = .hostReset :: (List.replicate n .engineCompletion ++ rest) →
    ∃ t u, step s = .next t ∧ t.block.busy = false ∧ t.block.done = false ∧
      Sys2Proof.core.run n t = .next u ∧ u = { t with pending := rest }

/-! ### Loading an input and running a command on it -/

/-- `LOAD b; ENC` and the completion, from any idle state and for every byte sequence that fits, end with the encoding of
`b` (40_commands.md R133). -/
def Obligations.LoadedBytesAreEncoded : Prop :=
  ∀ (s : Machine.State) (b : List Byte) (rest : List AgentStep), s.block.busy = false →
    Config.legalIbufSize s.block.ibufSize → b.length ≤ s.block.ibufSize →
    s.pending = loadTransactions b ++ issueWord 1 :: .engineCompletion :: rest →
    ∃ u : Machine.State, Sys2Proof.core.run (b.length + 3) s = .next u ∧ u.pending = rest ∧
      u.block.succeeded ∧ u.block.busy = false ∧ u.block.result = encodeBytes b ∧ u.block.hzd = s.block.hzd

/-- `LOAD t; DEC` and the completion, from any idle state and for every symbol sequence that fits, end with the decoding
of `t` or with its error in the registers (40_commands.md R133). -/
def Obligations.LoadedTextIsDecoded : Prop :=
  ∀ (s : Machine.State) (b : List Byte) (rest : List AgentStep), s.block.busy = false →
    Config.legalIbufSize s.block.ibufSize → b.length ≤ s.block.ibufSize →
    s.pending = loadTransactions b ++ issueWord 2 :: .engineCompletion :: rest →
    ∃ u : Machine.State, Sys2Proof.core.run (b.length + 3) s = .next u ∧ u.pending = rest ∧
      u.block.busy = false ∧ u.block.hzd = s.block.hzd ∧
      match decodeText true b with
      | .ok out => u.block.succeeded ∧ u.block.result = out
      | .err code ch pos =>
        u.block.failed ∧ u.block.ecode = code ∧ u.block.echar = ch ∧ u.block.epos.toNat = pos ∧ u.block.olen = 0

/-! ### The micro-sequences -/

/-- The encoder's micro-sequence, from any values of the hidden registers and of the physical `OBUF`, leaves `encode` of
its input in `OBUF` and its length in `WP`, and writes nothing else (41_encoder.md R162, 10_state.md R34). -/
def Obligations.EncoderMicroSequenceComputesEncode : Prop :=
  ∀ (buf : Nat → Byte) (ilen : Nat) (w : Working),
    (encMicro buf ilen w).regs.wp = (encodeBytes (firstSymbols buf ilen)).length ∧
    ∀ j, (encMicro buf ilen w).obuf.cell? j =
      if h : j < (encodeBytes (firstSymbols buf ilen)).length then some (encodeBytes (firstSymbols buf ilen))[j]
      else w.obuf.cell? j

/-- The decoder's micro-sequence, from any values of the hidden registers and of the physical `OBUF`, ends as `decode`
does: with the output in `OBUF` and its length in `WP`, or with the same error and `OBUF` untouched (42_decoder.md
R199, R196). -/
def Obligations.DecoderMicroSequenceComputesDecode : Prop :=
  ∀ (strip : Bool) (buf : Nat → Byte) (ilen : Nat) (w : Working),
    match decodeText strip (firstSymbols buf ilen) with
    | .ok out =>
      (decMicro strip buf ilen w).2 = .published ∧ (decMicro strip buf ilen w).1.regs.wp = out.length ∧
      ∀ j, (decMicro strip buf ilen w).1.obuf.cell? j =
        if h : j < out.length then some out[j] else w.obuf.cell? j
    | .err code ch pos =>
      (decMicro strip buf ilen w).2 = .failed code ch pos ∧ (decMicro strip buf ilen w).1.obuf = w.obuf

/-! ### The physical `OBUF` -/

/-- THE MODEL'S CHOICE of what the physical `OBUF` holds where no read can show it (log entry 3), which 40_commands.md R128
and 93 U4 leave open: apart from a reset, an entry changes only in the completion of a running command that succeeds with
an output that covers it. So from the issue of a launching command to its completion every entry beyond the output, and
after an error every entry, is as it was. -/
def Obligations.UnreadableOutputEntriesKeepTheirContent : Prop :=
  (∀ s t : Machine.State, step s = .next t →
    (∃ rest, s.pending = .hostReset :: rest) ∨
    ∀ j, t.block.obufByte j ≠ s.block.obufByte j →
      s.engineNext ∧ s.block.busy = true ∧ ∃ out, commandResult s.block = .ok out ∧ j < out.length) ∧
  ∀ (i : Instr) (s : Machine.State), i.wellFormed = true → i.commandClass = .launching → s.block.busy = false →
    s.engineNext →
    ∃ t u, exec i s = .next t ∧ step t = .next u ∧ t.block.busy = true ∧ u.block.busy = false ∧
      ∀ j, (∀ out, commandResult t.block = .ok out → out.length ≤ j) → u.block.obufByte j = s.block.obufByte j
end

