-- ==== Sys2Proof/Laws/State.lean ====
section
/-! SUPPORT. One lemma per field per update of the state, so that no later proof unfolds a record update. -/

namespace Sys2Proof.Machine

@[simp] theorem Block.drop_ie (b : Block) : b.drop.ie = b.ie := rfl
@[simp] theorem Block.drop_busy (b : Block) : b.drop.busy = b.busy := rfl
@[simp] theorem Block.drop_done (b : Block) : b.drop.done = b.done := rfl
@[simp] theorem Block.drop_err (b : Block) : b.drop.err = b.err := rfl
@[simp] theorem Block.drop_hzd (b : Block) : b.drop.hzd = true := rfl
@[simp] theorem Block.drop_cmd (b : Block) : b.drop.cmd = b.cmd := rfl
@[simp] theorem Block.drop_ilen (b : Block) : b.drop.ilen = b.ilen := rfl
@[simp] theorem Block.drop_olen (b : Block) : b.drop.olen = b.olen := rfl
@[simp] theorem Block.drop_ecode (b : Block) : b.drop.ecode = b.ecode := rfl
@[simp] theorem Block.drop_echar (b : Block) : b.drop.echar = b.echar := rfl
@[simp] theorem Block.drop_epos (b : Block) : b.drop.epos = b.epos := rfl
@[simp] theorem Block.drop_ibuf (b : Block) : b.drop.ibuf = b.ibuf := rfl
@[simp] theorem Block.drop_obuf (b : Block) : b.drop.obuf = b.obuf := rfl
@[simp] theorem Block.drop_ibufSize (b : Block) : b.drop.ibufSize = b.ibufSize := rfl
@[simp] theorem Block.drop_resets (b : Block) : b.drop.resets = b.resets := rfl

@[simp] theorem Block.setIe_ie (b : Block) (v : Bool) : (b.setIe v).ie = v := rfl
@[simp] theorem Block.setIe_busy (b : Block) (v : Bool) : (b.setIe v).busy = b.busy := rfl
@[simp] theorem Block.setIe_done (b : Block) (v : Bool) : (b.setIe v).done = b.done := rfl
@[simp] theorem Block.setIe_err (b : Block) (v : Bool) : (b.setIe v).err = b.err := rfl
@[simp] theorem Block.setIe_hzd (b : Block) (v : Bool) : (b.setIe v).hzd = b.hzd := rfl
@[simp] theorem Block.setIe_cmd (b : Block) (v : Bool) : (b.setIe v).cmd = b.cmd := rfl
@[simp] theorem Block.setIe_ilen (b : Block) (v : Bool) : (b.setIe v).ilen = b.ilen := rfl
@[simp] theorem Block.setIe_olen (b : Block) (v : Bool) : (b.setIe v).olen = b.olen := rfl
@[simp] theorem Block.setIe_ecode (b : Block) (v : Bool) : (b.setIe v).ecode = b.ecode := rfl
@[simp] theorem Block.setIe_echar (b : Block) (v : Bool) : (b.setIe v).echar = b.echar := rfl
@[simp] theorem Block.setIe_epos (b : Block) (v : Bool) : (b.setIe v).epos = b.epos := rfl
@[simp] theorem Block.setIe_ibuf (b : Block) (v : Bool) : (b.setIe v).ibuf = b.ibuf := rfl
@[simp] theorem Block.setIe_obuf (b : Block) (v : Bool) : (b.setIe v).obuf = b.obuf := rfl
@[simp] theorem Block.setIe_ibufSize (b : Block) (v : Bool) : (b.setIe v).ibufSize = b.ibufSize := rfl
@[simp] theorem Block.setIe_resets (b : Block) (v : Bool) : (b.setIe v).resets = b.resets := rfl

@[simp] theorem Block.setIlen_ie (b : Block) (d : Word) : (b.setIlen d).ie = b.ie := rfl
@[simp] theorem Block.setIlen_busy (b : Block) (d : Word) : (b.setIlen d).busy = b.busy := rfl
@[simp] theorem Block.setIlen_done (b : Block) (d : Word) : (b.setIlen d).done = b.done := rfl
@[simp] theorem Block.setIlen_err (b : Block) (d : Word) : (b.setIlen d).err = b.err := rfl
@[simp] theorem Block.setIlen_hzd (b : Block) (d : Word) : (b.setIlen d).hzd = b.hzd := rfl
@[simp] theorem Block.setIlen_cmd (b : Block) (d : Word) : (b.setIlen d).cmd = b.cmd := rfl
@[simp] theorem Block.setIlen_ilen (b : Block) (d : Word) : (b.setIlen d).ilen = d := rfl
@[simp] theorem Block.setIlen_olen (b : Block) (d : Word) : (b.setIlen d).olen = b.olen := rfl
@[simp] theorem Block.setIlen_ecode (b : Block) (d : Word) : (b.setIlen d).ecode = b.ecode := rfl
@[simp] theorem Block.setIlen_echar (b : Block) (d : Word) : (b.setIlen d).echar = b.echar := rfl
@[simp] theorem Block.setIlen_epos (b : Block) (d : Word) : (b.setIlen d).epos = b.epos := rfl
@[simp] theorem Block.setIlen_ibuf (b : Block) (d : Word) : (b.setIlen d).ibuf = b.ibuf := rfl
@[simp] theorem Block.setIlen_obuf (b : Block) (d : Word) : (b.setIlen d).obuf = b.obuf := rfl
@[simp] theorem Block.setIlen_ibufSize (b : Block) (d : Word) : (b.setIlen d).ibufSize = b.ibufSize := rfl
@[simp] theorem Block.setIlen_resets (b : Block) (d : Word) : (b.setIlen d).resets = b.resets := rfl

@[simp] theorem Block.setIbuf_ie (b : Block) (i : Nat) (v : Byte) : (b.setIbuf i v).ie = b.ie := rfl
@[simp] theorem Block.setIbuf_busy (b : Block) (i : Nat) (v : Byte) : (b.setIbuf i v).busy = b.busy := rfl
@[simp] theorem Block.setIbuf_done (b : Block) (i : Nat) (v : Byte) : (b.setIbuf i v).done = b.done := rfl
@[simp] theorem Block.setIbuf_err (b : Block) (i : Nat) (v : Byte) : (b.setIbuf i v).err = b.err := rfl
@[simp] theorem Block.setIbuf_hzd (b : Block) (i : Nat) (v : Byte) : (b.setIbuf i v).hzd = b.hzd := rfl
@[simp] theorem Block.setIbuf_cmd (b : Block) (i : Nat) (v : Byte) : (b.setIbuf i v).cmd = b.cmd := rfl
@[simp] theorem Block.setIbuf_ilen (b : Block) (i : Nat) (v : Byte) : (b.setIbuf i v).ilen = b.ilen := rfl
@[simp] theorem Block.setIbuf_olen (b : Block) (i : Nat) (v : Byte) : (b.setIbuf i v).olen = b.olen := rfl
@[simp] theorem Block.setIbuf_ecode (b : Block) (i : Nat) (v : Byte) : (b.setIbuf i v).ecode = b.ecode := rfl
@[simp] theorem Block.setIbuf_echar (b : Block) (i : Nat) (v : Byte) : (b.setIbuf i v).echar = b.echar := rfl
@[simp] theorem Block.setIbuf_epos (b : Block) (i : Nat) (v : Byte) : (b.setIbuf i v).epos = b.epos := rfl
@[simp] theorem Block.setIbuf_ibuf (b : Block) (i : Nat) (v : Byte) : (b.setIbuf i v).ibuf = b.ibuf.store i v := rfl
@[simp] theorem Block.setIbuf_obuf (b : Block) (i : Nat) (v : Byte) : (b.setIbuf i v).obuf = b.obuf := rfl
@[simp] theorem Block.setIbuf_ibufSize (b : Block) (i : Nat) (v : Byte) : (b.setIbuf i v).ibufSize = b.ibufSize := rfl
@[simp] theorem Block.setIbuf_resets (b : Block) (i : Nat) (v : Byte) : (b.setIbuf i v).resets = b.resets := rfl

@[simp] theorem Block.record_ie (b : Block) (w : Word) : (b.record w).ie = b.ie := rfl
@[simp] theorem Block.record_busy (b : Block) (w : Word) : (b.record w).busy = b.busy := rfl
@[simp] theorem Block.record_done (b : Block) (w : Word) : (b.record w).done = b.done := rfl
@[simp] theorem Block.record_err (b : Block) (w : Word) : (b.record w).err = b.err := rfl
@[simp] theorem Block.record_hzd (b : Block) (w : Word) : (b.record w).hzd = b.hzd := rfl
@[simp] theorem Block.record_cmd (b : Block) (w : Word) : (b.record w).cmd = w := rfl
@[simp] theorem Block.record_ilen (b : Block) (w : Word) : (b.record w).ilen = b.ilen := rfl
@[simp] theorem Block.record_olen (b : Block) (w : Word) : (b.record w).olen = b.olen := rfl
@[simp] theorem Block.record_ecode (b : Block) (w : Word) : (b.record w).ecode = b.ecode := rfl
@[simp] theorem Block.record_echar (b : Block) (w : Word) : (b.record w).echar = b.echar := rfl
@[simp] theorem Block.record_epos (b : Block) (w : Word) : (b.record w).epos = b.epos := rfl
@[simp] theorem Block.record_ibuf (b : Block) (w : Word) : (b.record w).ibuf = b.ibuf := rfl
@[simp] theorem Block.record_obuf (b : Block) (w : Word) : (b.record w).obuf = b.obuf := rfl
@[simp] theorem Block.record_ibufSize (b : Block) (w : Word) : (b.record w).ibufSize = b.ibufSize := rfl
@[simp] theorem Block.record_resets (b : Block) (w : Word) : (b.record w).resets = b.resets := rfl

@[simp] theorem Block.clearOutcome_ie (b : Block) : b.clearOutcome.ie = b.ie := rfl
@[simp] theorem Block.clearOutcome_busy (b : Block) : b.clearOutcome.busy = b.busy := rfl
@[simp] theorem Block.clearOutcome_done (b : Block) : b.clearOutcome.done = false := rfl
@[simp] theorem Block.clearOutcome_err (b : Block) : b.clearOutcome.err = false := rfl
@[simp] theorem Block.clearOutcome_hzd (b : Block) : b.clearOutcome.hzd = b.hzd := rfl
@[simp] theorem Block.clearOutcome_cmd (b : Block) : b.clearOutcome.cmd = b.cmd := rfl
@[simp] theorem Block.clearOutcome_ilen (b : Block) : b.clearOutcome.ilen = b.ilen := rfl
@[simp] theorem Block.clearOutcome_olen (b : Block) : b.clearOutcome.olen = 0 := rfl
@[simp] theorem Block.clearOutcome_ecode (b : Block) : b.clearOutcome.ecode = .none := rfl
@[simp] theorem Block.clearOutcome_echar (b : Block) : b.clearOutcome.echar = 0 := rfl
@[simp] theorem Block.clearOutcome_epos (b : Block) : b.clearOutcome.epos = 0 := rfl
@[simp] theorem Block.clearOutcome_ibuf (b : Block) : b.clearOutcome.ibuf = b.ibuf := rfl
@[simp] theorem Block.clearOutcome_obuf (b : Block) : b.clearOutcome.obuf = b.obuf := rfl
@[simp] theorem Block.clearOutcome_ibufSize (b : Block) : b.clearOutcome.ibufSize = b.ibufSize := rfl
@[simp] theorem Block.clearOutcome_resets (b : Block) : b.clearOutcome.resets = b.resets := rfl

@[simp] theorem Block.clearHazard_ie (b : Block) : b.clearHazard.ie = b.ie := rfl
@[simp] theorem Block.clearHazard_busy (b : Block) : b.clearHazard.busy = b.busy := rfl
@[simp] theorem Block.clearHazard_done (b : Block) : b.clearHazard.done = b.done := rfl
@[simp] theorem Block.clearHazard_err (b : Block) : b.clearHazard.err = b.err := rfl
@[simp] theorem Block.clearHazard_hzd (b : Block) : b.clearHazard.hzd = false := rfl
@[simp] theorem Block.clearHazard_cmd (b : Block) : b.clearHazard.cmd = b.cmd := rfl
@[simp] theorem Block.clearHazard_ilen (b : Block) : b.clearHazard.ilen = b.ilen := rfl
@[simp] theorem Block.clearHazard_olen (b : Block) : b.clearHazard.olen = b.olen := rfl
@[simp] theorem Block.clearHazard_ecode (b : Block) : b.clearHazard.ecode = b.ecode := rfl
@[simp] theorem Block.clearHazard_echar (b : Block) : b.clearHazard.echar = b.echar := rfl
@[simp] theorem Block.clearHazard_epos (b : Block) : b.clearHazard.epos = b.epos := rfl
@[simp] theorem Block.clearHazard_ibuf (b : Block) : b.clearHazard.ibuf = b.ibuf := rfl
@[simp] theorem Block.clearHazard_obuf (b : Block) : b.clearHazard.obuf = b.obuf := rfl
@[simp] theorem Block.clearHazard_ibufSize (b : Block) : b.clearHazard.ibufSize = b.ibufSize := rfl
@[simp] theorem Block.clearHazard_resets (b : Block) : b.clearHazard.resets = b.resets := rfl

@[simp] theorem Block.startEngine_ie (b : Block) : b.startEngine.ie = b.ie := rfl
@[simp] theorem Block.startEngine_busy (b : Block) : b.startEngine.busy = true := rfl
@[simp] theorem Block.startEngine_done (b : Block) : b.startEngine.done = b.done := rfl
@[simp] theorem Block.startEngine_err (b : Block) : b.startEngine.err = b.err := rfl
@[simp] theorem Block.startEngine_hzd (b : Block) : b.startEngine.hzd = b.hzd := rfl
@[simp] theorem Block.startEngine_cmd (b : Block) : b.startEngine.cmd = b.cmd := rfl
@[simp] theorem Block.startEngine_ilen (b : Block) : b.startEngine.ilen = b.ilen := rfl
@[simp] theorem Block.startEngine_olen (b : Block) : b.startEngine.olen = b.olen := rfl
@[simp] theorem Block.startEngine_ecode (b : Block) : b.startEngine.ecode = b.ecode := rfl
@[simp] theorem Block.startEngine_echar (b : Block) : b.startEngine.echar = b.echar := rfl
@[simp] theorem Block.startEngine_epos (b : Block) : b.startEngine.epos = b.epos := rfl
@[simp] theorem Block.startEngine_ibuf (b : Block) : b.startEngine.ibuf = b.ibuf := rfl
@[simp] theorem Block.startEngine_obuf (b : Block) : b.startEngine.obuf = b.obuf := rfl
@[simp] theorem Block.startEngine_ibufSize (b : Block) : b.startEngine.ibufSize = b.ibufSize := rfl
@[simp] theorem Block.startEngine_resets (b : Block) : b.startEngine.resets = b.resets := rfl

@[simp] theorem Block.launch_ie (b : Block) (w : Word) : (b.launch w).ie = b.ie := rfl
@[simp] theorem Block.launch_busy (b : Block) (w : Word) : (b.launch w).busy = true := rfl
@[simp] theorem Block.launch_done (b : Block) (w : Word) : (b.launch w).done = false := rfl
@[simp] theorem Block.launch_err (b : Block) (w : Word) : (b.launch w).err = false := rfl
@[simp] theorem Block.launch_hzd (b : Block) (w : Word) : (b.launch w).hzd = b.hzd := rfl
@[simp] theorem Block.launch_cmd (b : Block) (w : Word) : (b.launch w).cmd = w := rfl
@[simp] theorem Block.launch_ilen (b : Block) (w : Word) : (b.launch w).ilen = b.ilen := rfl
@[simp] theorem Block.launch_olen (b : Block) (w : Word) : (b.launch w).olen = 0 := rfl
@[simp] theorem Block.launch_ecode (b : Block) (w : Word) : (b.launch w).ecode = .none := rfl
@[simp] theorem Block.launch_echar (b : Block) (w : Word) : (b.launch w).echar = 0 := rfl
@[simp] theorem Block.launch_epos (b : Block) (w : Word) : (b.launch w).epos = 0 := rfl
@[simp] theorem Block.launch_ibuf (b : Block) (w : Word) : (b.launch w).ibuf = b.ibuf := rfl
@[simp] theorem Block.launch_obuf (b : Block) (w : Word) : (b.launch w).obuf = b.obuf := rfl
@[simp] theorem Block.launch_ibufSize (b : Block) (w : Word) : (b.launch w).ibufSize = b.ibufSize := rfl
@[simp] theorem Block.launch_resets (b : Block) (w : Word) : (b.launch w).resets = b.resets := rfl

@[simp] theorem Block.finish_ie (b : Block) (out : List Byte) : (b.finish out).ie = b.ie := rfl
@[simp] theorem Block.finish_busy (b : Block) (out : List Byte) : (b.finish out).busy = false := rfl
@[simp] theorem Block.finish_done (b : Block) (out : List Byte) : (b.finish out).done = true := rfl
@[simp] theorem Block.finish_err (b : Block) (out : List Byte) : (b.finish out).err = b.err := rfl
@[simp] theorem Block.finish_hzd (b : Block) (out : List Byte) : (b.finish out).hzd = b.hzd := rfl
@[simp] theorem Block.finish_cmd (b : Block) (out : List Byte) : (b.finish out).cmd = b.cmd := rfl
@[simp] theorem Block.finish_ilen (b : Block) (out : List Byte) : (b.finish out).ilen = b.ilen := rfl
@[simp] theorem Block.finish_olen (b : Block) (out : List Byte) : (b.finish out).olen = BitVec.ofNat 32 out.length := rfl
@[simp] theorem Block.finish_ecode (b : Block) (out : List Byte) : (b.finish out).ecode = b.ecode := rfl
@[simp] theorem Block.finish_echar (b : Block) (out : List Byte) : (b.finish out).echar = b.echar := rfl
@[simp] theorem Block.finish_epos (b : Block) (out : List Byte) : (b.finish out).epos = b.epos := rfl
@[simp] theorem Block.finish_ibuf (b : Block) (out : List Byte) : (b.finish out).ibuf = b.ibuf := rfl
@[simp] theorem Block.finish_obuf (b : Block) (out : List Byte) : (b.finish out).obuf = b.obuf.storeFrom 0 out := rfl
@[simp] theorem Block.finish_ibufSize (b : Block) (out : List Byte) : (b.finish out).ibufSize = b.ibufSize := rfl
@[simp] theorem Block.finish_resets (b : Block) (out : List Byte) : (b.finish out).resets = b.resets := rfl

@[simp] theorem Block.enterError_ie (b : Block) (code : ErrorCode) (ch : Byte) (pos : Nat) : (b.enterError code ch pos).ie = b.ie := rfl
@[simp] theorem Block.enterError_busy (b : Block) (code : ErrorCode) (ch : Byte) (pos : Nat) : (b.enterError code ch pos).busy = false := rfl
@[simp] theorem Block.enterError_done (b : Block) (code : ErrorCode) (ch : Byte) (pos : Nat) : (b.enterError code ch pos).done = true := rfl
@[simp] theorem Block.enterError_err (b : Block) (code : ErrorCode) (ch : Byte) (pos : Nat) : (b.enterError code ch pos).err = true := rfl
@[simp] theorem Block.enterError_hzd (b : Block) (code : ErrorCode) (ch : Byte) (pos : Nat) : (b.enterError code ch pos).hzd = b.hzd := rfl
@[simp] theorem Block.enterError_cmd (b : Block) (code : ErrorCode) (ch : Byte) (pos : Nat) : (b.enterError code ch pos).cmd = b.cmd := rfl
@[simp] theorem Block.enterError_ilen (b : Block) (code : ErrorCode) (ch : Byte) (pos : Nat) : (b.enterError code ch pos).ilen = b.ilen := rfl
@[simp] theorem Block.enterError_olen (b : Block) (code : ErrorCode) (ch : Byte) (pos : Nat) : (b.enterError code ch pos).olen = b.olen := rfl
@[simp] theorem Block.enterError_ecode (b : Block) (code : ErrorCode) (ch : Byte) (pos : Nat) : (b.enterError code ch pos).ecode = code := rfl
@[simp] theorem Block.enterError_echar (b : Block) (code : ErrorCode) (ch : Byte) (pos : Nat) : (b.enterError code ch pos).echar = ch := rfl
@[simp] theorem Block.enterError_epos (b : Block) (code : ErrorCode) (ch : Byte) (pos : Nat) : (b.enterError code ch pos).epos = BitVec.ofNat 32 pos := rfl
@[simp] theorem Block.enterError_ibuf (b : Block) (code : ErrorCode) (ch : Byte) (pos : Nat) : (b.enterError code ch pos).ibuf = b.ibuf := rfl
@[simp] theorem Block.enterError_obuf (b : Block) (code : ErrorCode) (ch : Byte) (pos : Nat) : (b.enterError code ch pos).obuf = b.obuf := rfl
@[simp] theorem Block.enterError_ibufSize (b : Block) (code : ErrorCode) (ch : Byte) (pos : Nat) : (b.enterError code ch pos).ibufSize = b.ibufSize := rfl
@[simp] theorem Block.enterError_resets (b : Block) (code : ErrorCode) (ch : Byte) (pos : Nat) : (b.enterError code ch pos).resets = b.resets := rfl

@[simp] theorem Block.resetStep_ie (b : Block) : b.resetStep.ie = false := rfl
@[simp] theorem Block.resetStep_busy (b : Block) : b.resetStep.busy = false := rfl
@[simp] theorem Block.resetStep_done (b : Block) : b.resetStep.done = false := rfl
@[simp] theorem Block.resetStep_err (b : Block) : b.resetStep.err = false := rfl
@[simp] theorem Block.resetStep_hzd (b : Block) : b.resetStep.hzd = false := rfl
@[simp] theorem Block.resetStep_cmd (b : Block) : b.resetStep.cmd = 0 := rfl
@[simp] theorem Block.resetStep_ilen (b : Block) : b.resetStep.ilen = 0 := rfl
@[simp] theorem Block.resetStep_olen (b : Block) : b.resetStep.olen = 0 := rfl
@[simp] theorem Block.resetStep_ecode (b : Block) : b.resetStep.ecode = .none := rfl
@[simp] theorem Block.resetStep_echar (b : Block) : b.resetStep.echar = 0 := rfl
@[simp] theorem Block.resetStep_epos (b : Block) : b.resetStep.epos = 0 := rfl
@[simp] theorem Block.resetStep_ibuf (b : Block) : b.resetStep.ibuf = [] := rfl
@[simp] theorem Block.resetStep_obuf (b : Block) : b.resetStep.obuf = [] := rfl
@[simp] theorem Block.resetStep_ibufSize (b : Block) : b.resetStep.ibufSize = b.ibufSize := rfl
@[simp] theorem Block.resetStep_resets (b : Block) : b.resetStep.resets = b.resets + 1 := rfl

@[simp] theorem State.withBlock_block (s : State) (b : Block) : (s.withBlock b).block = b := rfl
@[simp] theorem State.withBlock_pending (s : State) (b : Block) : (s.withBlock b).pending = s.pending := rfl
@[simp] theorem State.withBlock_replies (s : State) (b : Block) : (s.withBlock b).replies = s.replies := rfl

@[simp] theorem State.withPending_block (s : State) (p : List AgentStep) : (s.withPending p).block = s.block := rfl
@[simp] theorem State.withPending_pending (s : State) (p : List AgentStep) : (s.withPending p).pending = p := rfl
@[simp] theorem State.withPending_replies (s : State) (p : List AgentStep) : (s.withPending p).replies = s.replies := rfl

@[simp] theorem State.reply_block (s : State) (d : Word) : (s.reply d).block = s.block := rfl
@[simp] theorem State.reply_pending (s : State) (d : Word) : (s.reply d).pending = s.pending := rfl
@[simp] theorem State.reply_replies (s : State) (d : Word) : (s.reply d).replies = s.replies ++ [d] := rfl

end Sys2Proof.Machine
end

