-- ==== Sys2Proof/Laws/Memory.lean ====
section
/-! SUPPORT. The laws of the buffers: read after write, the canonical form is kept, equal reads mean equal data. -/

namespace Sys2Proof.Machine

theorem Memory.wf_nil : Memory.wf [] := List.Pairwise.nil

theorem Memory.cell?_nil (i : Nat) : Memory.cell? [] i = none := rfl

/-- Read after write, at the written index and at every other. -/
theorem Memory.cell?_store (m : Memory) (i j : Nat) (v : Byte) :
    (m.store i v).cell? j = if j = i then some v else m.cell? j := by
  induction m with
  | nil => simp [Memory.store, Memory.cell?, eq_comm]
  | cons c m ih =>
    obtain ⟨a, w⟩ := c
    simp only [Memory.store]
    split
    · simp [Memory.cell?, eq_comm]
    · split
      · rename_i h; subst h
        by_cases hj : j = i
        · simp [Memory.cell?, hj]
        · simp [Memory.cell?, hj, Ne.symm hj]
      · simp only [Memory.cell?, ih]
        by_cases ha : a = j <;> by_cases hj : j = i <;> simp_all

theorem Memory.cell?_store_self (m : Memory) (i : Nat) (v : Byte) : (m.store i v).cell? i = some v := by
  simp [Memory.cell?_store]

theorem Memory.cell?_store_ne (m : Memory) {i j : Nat} (v : Byte) (h : j ≠ i) :
    (m.store i v).cell? j = m.cell? j := by
  simp [Memory.cell?_store, h]

/-- The indices of a buffer after a write are the written one and those it had. -/
theorem Memory.mem_indices_store (m : Memory) (i k : Nat) (v : Byte) :
    k ∈ (m.store i v).map Prod.fst ↔ k = i ∨ k ∈ m.map Prod.fst := by
  induction m with
  | nil => simp [Memory.store]
  | cons c m ih =>
    obtain ⟨a, w⟩ := c
    simp only [Memory.store]
    split
    · simp
    · split
      · rename_i h; subst h; simp
      · simp only [List.map_cons, List.mem_cons, ih]; tauto

/-- A write keeps the canonical form. -/
theorem Memory.wf_store {m : Memory} (h : m.wf) (i : Nat) (v : Byte) : (m.store i v).wf := by
  induction m with
  | nil => simp [Memory.store, Memory.wf]
  | cons c m ih =>
    obtain ⟨a, w⟩ := c
    simp only [Memory.wf, List.map_cons, List.pairwise_cons] at h
    simp only [Memory.store]
    split
    · rename_i hi
      simp only [Memory.wf, List.map_cons, List.pairwise_cons, List.mem_cons]
      refine ⟨fun k hk => ?_, h.1, h.2⟩
      rcases hk with rfl | hk
      · exact hi
      · exact Nat.lt_trans hi (h.1 k hk)
    · split
      · rename_i hi; subst hi
        simpa only [Memory.wf, List.map_cons, List.pairwise_cons] using h
      · rename_i h1 h2
        simp only [Memory.wf, List.map_cons, List.pairwise_cons]
        refine ⟨fun k hk => ?_, ih h.2⟩
        rcases (Memory.mem_indices_store m i k v).1 hk with rfl | hk
        · omega
        · exact h.1 k hk

/-- A write inside the buffer keeps its entries inside. -/
theorem Memory.within_store {m : Memory} {size : Nat} (h : m.within size) {i : Nat} (hi : i < size) (v : Byte) :
    (m.store i v).within size := by
  intro c hc
  have := (Memory.mem_indices_store m i c.1 v).1 (List.mem_map_of_mem hc)
  rcases this with h1 | h1
  · omega
  · obtain ⟨d, hd, hdc⟩ := List.mem_map.1 h1
    exact hdc ▸ h d hd

/-- Read after a write of consecutive entries. -/
theorem Memory.cell?_storeFrom (vs : List Byte) : ∀ (m : Memory) (i j : Nat),
    (m.storeFrom i vs).cell? j = if i ≤ j ∧ j < i + vs.length then vs[j - i]? else m.cell? j := by
  induction vs with
  | nil => intro m i j; rw [if_neg (by simp)]; rfl
  | cons v vs ih =>
    intro m i j
    rw [Memory.storeFrom, ih, Memory.cell?_store]
    simp only [List.length_cons]
    by_cases h1 : j = i
    · subst h1; simp
    · by_cases h2 : i + 1 ≤ j ∧ j < i + 1 + vs.length
      · have : j - i = (j - (i + 1)) + 1 := by omega
        rw [if_pos h2, if_pos (by omega), this, List.getElem?_cons_succ]
      · rw [if_neg h2, if_neg h1, if_neg (by omega)]

theorem Memory.wf_storeFrom (vs : List Byte) : ∀ {m : Memory}, m.wf → ∀ i, (m.storeFrom i vs).wf := by
  induction vs with
  | nil => intro m h i; exact h
  | cons v vs ih => intro m h i; exact ih (Memory.wf_store h i v) (i + 1)

theorem Memory.within_storeFrom (vs : List Byte) {size : Nat} : ∀ {m : Memory}, m.within size → ∀ i,
    i + vs.length ≤ size → (m.storeFrom i vs).within size := by
  induction vs with
  | nil => intro m h i _; exact h
  | cons v vs ih =>
    intro m h i hi
    simp only [List.length_cons] at hi
    exact ih (Memory.within_store h (by omega) v) (i + 1) (by omega)

/-- An unlisted index has no value. -/
theorem Memory.cell?_eq_none {m : Memory} {i : Nat} (h : i ∉ m.map Prod.fst) : m.cell? i = none := by
  induction m with
  | nil => rfl
  | cons c m ih =>
    obtain ⟨a, w⟩ := c
    simp only [List.map_cons, List.mem_cons, not_or] at h
    simp only [Memory.cell?]
    rw [if_neg (fun e => h.1 e.symm), ih h.2]

/-- Two buffers in canonical form that read alike everywhere are the same data. -/
theorem Memory.ext_of_wf : ∀ {m n : Memory}, m.wf → n.wf → (∀ i, m.cell? i = n.cell? i) → m = n
  | [], [], _, _, _ => rfl
  | [], (a, w) :: n, _, _, h => by simpa [Memory.cell?] using h a
  | (a, w) :: m, [], _, _, h => by simpa [Memory.cell?] using h a
  | (a, w) :: m, (b, x) :: n, hm, hn, h => by
    simp only [Memory.wf, List.map_cons, List.pairwise_cons] at hm hn
    have key : ∀ {c : Nat} {l : Memory}, (∀ k ∈ l.map Prod.fst, c < k) → ∀ i, i ≤ c → l.cell? i = none :=
      fun hl i hi => Memory.cell?_eq_none fun hk => absurd (hl i hk) (by omega)
    have hab : a = b := by
      rcases Nat.lt_trichotomy a b with hlt | heq | hgt
      · have := h a
        simp [Memory.cell?, Nat.ne_of_gt hlt, key hn.1 a (Nat.le_of_lt hlt)] at this
      · exact heq
      · have := h b
        simp [Memory.cell?, Nat.ne_of_gt hgt, key hm.1 b (Nat.le_of_lt hgt)] at this
    subst hab
    have hw : w = x := by simpa [Memory.cell?] using h a
    subst hw
    have : m = n := Memory.ext_of_wf hm.2 hn.2 fun i => by
      by_cases hi : a = i
      · subst hi; rw [key hm.1 a (Nat.le_refl a), key hn.1 a (Nat.le_refl a)]
      · simpa [Memory.cell?, hi] using h i
    rw [this]

/-- Writing the same entry twice is writing it once. -/
theorem Memory.store_store (m : Memory) (i : Nat) (v : Byte) : (m.store i v).store i v = m.store i v := by
  induction m with
  | nil => simp [Memory.store]
  | cons c m ih =>
    obtain ⟨a, w⟩ := c
    by_cases h1 : i < a
    · simp [Memory.store, h1]
    · by_cases h2 : i = a
      · simp [Memory.store, h2]
      · simp [Memory.store, h1, h2, ih]

end Sys2Proof.Machine
end

