-- ==== Sys2Proof/Laws/Codec.lean ====
section
/-! SUPPORT. The laws of the codec's sub-blocks: the chunkers as recursions, the tables, the chunk values, the scan. -/

namespace Sys2Proof.Machine

/-- Cutting into `count + 1` pieces of `n`, when the first piece is known to be `c`. -/
theorem chunks_cons {α : Type} {n : Nat} {c : List α} (hc : c.length = n) (b : List α) (count : Nat) :
    (List.range (count + 1)).map (fun i => ((c ++ b).drop (n * i)).take n) =
      c :: (List.range count).map fun i => (b.drop (n * i)).take n := by
  rw [List.range_succ_eq_map, List.map_cons, List.map_map]
  congr 1
  · simp [← hc]
  · apply List.map_congr_left
    intro i _
    have : n * (i + 1) = c.length + n * i := by rw [hc]; ring
    simp only [Function.comp, Nat.succ_eq_add_one, this]
    rw [List.drop_append, List.drop_eq_nil_of_le (by omega), List.nil_append, Nat.add_sub_cancel_left]

theorem byteChunks_nil : byteChunks [] = [] := rfl

/-- A full byte chunk is cut off and the rest is cut on its own (41_encoder.md R151). -/
theorem byteChunks_append {c : List Byte} (hc : c.length = 3) (b : List Byte) :
    byteChunks (c ++ b) = c :: byteChunks b := by
  have : ((c ++ b).length + 2) / 3 = (b.length + 2) / 3 + 1 := by
    rw [List.length_append, hc]; omega
  rw [byteChunks, this, chunks_cons hc, byteChunks]

/-- A last byte chunk is the whole rest (41_encoder.md R151). -/
theorem byteChunks_last {b : List Byte} (h0 : b ≠ []) (h3 : b.length ≤ 3) : byteChunks b = [b] := by
  have := List.length_pos_iff.2 h0
  have : (b.length + 2) / 3 = 1 := by omega
  simp [byteChunks, this, List.take_of_length_le h3]

/-- A full character chunk that is not the last is cut off (42_decoder.md R186). -/
theorem textChunks_append {e : List Byte} (he : e.length = 5) {t : List Byte} {last : Nat} (h : last ≤ t.length) :
    textChunks (e ++ t) last = e :: textChunks t last := by
  have : ((e ++ t).length - last) / 5 = (t.length - last) / 5 + 1 := by
    rw [List.length_append, he]; omega
  simp only [textChunks, this, chunks_cons he, List.cons_append]
  congr 3
  rw [show 5 * ((t.length - last) / 5 + 1) = e.length + 5 * ((t.length - last) / 5) by rw [he]; ring]
  simp [List.drop_append]

/-- The last character chunk is the whole rest (42_decoder.md R186). -/
theorem textChunks_last {t : List Byte} {last : Nat} (h : t.length = last) : textChunks t last = [t] := by
  simp [textChunks, h]

/-- Induction along the chunks of `n` symbols: the empty sequence, a short rest, a full chunk before the rest. -/
theorem chunk_induction {α : Type} {n : Nat} (hn : 0 < n) {P : List α → Prop} (nil : P [])
    (short : ∀ b : List α, b ≠ [] → b.length < n → P b)
    (full : ∀ c b : List α, c.length = n → P b → P (c ++ b)) : ∀ b, P b := by
  suffices h : ∀ k (b : List α), b.length ≤ k → P b from fun b => h b.length b (Nat.le_refl _)
  intro k
  induction k with
  | zero => intro b hb; rw [List.length_eq_zero_iff.1 (Nat.le_zero.1 hb)]; exact nil
  | succ k ih =>
    intro b hb
    by_cases h0 : b = []
    · rw [h0]; exact nil
    · by_cases hs : b.length < n
      · exact short b h0 hs
      · rw [← List.take_append_drop n b]
        exact full _ _ (by rw [List.length_take]; omega) (ih _ (by rw [List.length_drop]; omega))

/-- The value of an alphabet character is its index (30_encoding.md R94). -/
theorem r38_a38 : ∀ v : Digit, r38 (a38 v) = ⟨true, BitVec.ofNat 6 v.val⟩ := by decide

theorem digitValue_a38 (v : Digit) : digitValue (a38 v) = v.val := by
  have := v.isLt
  simp only [digitValue, r38_a38, BitVec.toNat_ofNat]
  omega

theorem valid_a38 (v : Digit) : (r38 (a38 v)).valid = true := by rw [r38_a38]

/-- A valid entry's value is an alphabet index, and an invalid one's is 0 (30_encoding.md R94). -/
theorem digitValue_lt (c : Byte) : digitValue c < 38 := by
  have := c.isLt
  unfold digitValue r38
  repeat' split
  all_goals simp_all [BitVec.le_def, BitVec.toNat_sub]
  all_goals omega

@[simp] theorem leValue_nil : leValue [] = 0 := rfl

@[simp] theorem leValue_cons (v : Byte) (vs : List Byte) : leValue (v :: vs) = v.toNat + 256 * leValue vs := rfl

theorem leValue_lt : ∀ c : List Byte, leValue c < 256 ^ c.length
  | [] => by simp
  | v :: vs => by
    have := v.isLt
    have := leValue_lt vs
    rw [leValue_cons, List.length_cons, pow_succ]
    omega

@[simp] theorem chunkValue_nil : chunkValue [] = 0 := rfl

@[simp] theorem chunkValue_cons (c : Byte) (cs : List Byte) :
    chunkValue (c :: cs) = chunkValue cs * 38 + digitValue c := rfl

@[simp] theorem chainDigits_length (k v : Nat) : (chainDigits k v).length = k := by
  induction k generalizing v with
  | zero => rfl
  | succ k ih => simp [chainDigits, ih]

/-- Accumulating the characters of a chain gives back the value, up to the part the stages have not reached. -/
theorem chunkValue_chainDigits (k v : Nat) : chunkValue ((chainDigits k v).map a38) = v % 38 ^ k := by
  induction k generalizing v with
  | zero => simp [chainDigits, Nat.mod_one]
  | succ k ih =>
    simp only [chainDigits, List.map_cons, chunkValue_cons, ih, digitValue_a38, Fin.val_ofNat]
    rw [pow_succ', Nat.mod_mul]
    ring

/-- A chunk of 1, 2 or 3 bytes, with its number of characters. -/
theorem charsNeeded_cases {n : Nat} (h0 : 0 < n) (h3 : n ≤ 3) :
    ∃ k, charsNeeded n = some k ∧ bytesFor k = some n ∧ 256 ^ n ≤ 38 ^ k ∧
      ((n = 1 ∧ k = 2) ∨ (n = 2 ∧ k = 4) ∨ (n = 3 ∧ k = 5)) := by
  obtain rfl | rfl | rfl : n = 1 ∨ n = 2 ∨ n = 3 := by omega
  · exact ⟨2, by decide⟩
  · exact ⟨4, by decide⟩
  · exact ⟨5, by decide⟩

theorem encodeChunk_of_charsNeeded {c : List Byte} {k : Nat} (h : charsNeeded c.length = some k) :
    encodeChunk c = (chainDigits k (leValue c)).map a38 := by
  simp [encodeChunk, h]

/-- Every character of a chunk comes out of the alphabet ROM (41_encoder.md R156). -/
theorem mem_encodeChunk {c : List Byte} {x : Byte} (h : x ∈ encodeChunk c) : ∃ v, a38 v = x := by
  unfold encodeChunk at h
  split at h
  · obtain ⟨v, _, hv⟩ := List.mem_map.1 h; exact ⟨v, hv⟩
  · simp at h

theorem encodeBytes_nil : encodeBytes [] = [] := rfl

theorem encodeBytes_append {c : List Byte} (hc : c.length = 3) (b : List Byte) :
    encodeBytes (c ++ b) = encodeChunk c ++ encodeBytes b := by
  simp [encodeBytes, byteChunks_append hc]

theorem encodeBytes_last {b : List Byte} (h0 : b ≠ []) (h3 : b.length ≤ 3) : encodeBytes b = encodeChunk b := by
  simp [encodeBytes, byteChunks_last h0 h3]

/-- Byte `k` of a value, as a number. -/
theorem emitByte_toNat (value k : Nat) :
    (BitVec.ofNat 8 ((value >>> (8 * k)) &&& 0xFF)).toNat = value / 256 ^ k % 256 := by
  have h : (0xFF : Nat) = 2 ^ 8 - 1 := rfl
  have hp : (2 : Nat) ^ (8 * k) = 256 ^ k := by rw [pow_mul]; norm_num
  rw [h, Nat.and_two_pow_sub_one_eq_mod, BitVec.toNat_ofNat, Nat.shiftRight_eq_div_pow, hp]
  omega

@[simp] theorem emitBytes_length (count value : Nat) : (emitBytes count value).length = count := by
  simp [emitBytes]

theorem emitBytes_succ (count value : Nat) :
    emitBytes (count + 1) value = BitVec.ofNat 8 (value % 256) :: emitBytes count (value / 256) := by
  rw [emitBytes, List.range_succ_eq_map, List.map_cons, List.map_map, emitBytes]
  congr 1
  · apply BitVec.eq_of_toNat_eq; rw [emitByte_toNat]; simp
  · apply List.map_congr_left
    intro k _
    apply BitVec.eq_of_toNat_eq
    simp only [Function.comp, emitByte_toNat, Nat.succ_eq_add_one, Nat.div_div_eq_div_mul]
    rw [pow_succ']

/-- The emitted bytes are the value cut to its low `count` bytes, little-endian (42_decoder.md R191, R193). -/
theorem leValue_emitBytes (count value : Nat) : leValue (emitBytes count value) = value % 256 ^ count := by
  induction count generalizing value with
  | zero => simp [emitBytes, Nat.mod_one]
  | succ count ih =>
    rw [emitBytes_succ, leValue_cons, ih, pow_succ', Nat.mod_mul, BitVec.toNat_ofNat]
    omega

/-- Bytes are determined by their number and their little-endian value. -/
theorem leValue_injective : ∀ {b c : List Byte}, b.length = c.length → leValue b = leValue c → b = c
  | [], [], _, _ => rfl
  | v :: vs, w :: ws, hl, h => by
    have := v.isLt
    have := w.isLt
    simp only [leValue_cons] at h
    have hv : v = w := BitVec.eq_of_toNat_eq (by omega)
    have hvs : vs = ws := leValue_injective (by simpa using hl) (by omega)
    rw [hv, hvs]

/-- Emitting the bytes of a chunk's own value gives the chunk back. -/
theorem emitBytes_leValue (c : List Byte) : emitBytes c.length (leValue c) = c :=
  leValue_injective (by simp) (by rw [leValue_emitBytes, Nat.mod_eq_of_lt (leValue_lt c)])

theorem decodeChunk_of_bytesFor {e : List Byte} {n : Nat} (h : bytesFor e.length = some n) :
    decodeChunk e = some (emitBytes n (chunkValue e)) := by
  simp [decodeChunk, h]

/-- The scan finds nothing exactly when every symbol is valid (42_decoder.md R183). -/
theorem firstInvalid_eq_none {i : Nat} {t : List Byte} :
    firstInvalid i t = none ↔ ∀ c ∈ t, (r38 c).valid = true := by
  induction t generalizing i with
  | nil => simp [firstInvalid]
  | cons c cs ih =>
    by_cases h : (r38 c).valid = true <;> simp [firstInvalid, h, ih]

/-- The scan finds the lowest invalid index (42_decoder.md R183). -/
theorem firstInvalid_eq_some {i k : Nat} {t : List Byte} {c : Byte} :
    firstInvalid i t = some (c, k) ↔
      i ≤ k ∧ t[k - i]? = some c ∧ (r38 c).valid = false ∧
        ∀ j d, j < k - i → t[j]? = some d → (r38 d).valid = true := by
  induction t generalizing i with
  | nil => simp [firstInvalid]
  | cons x xs ih =>
    by_cases h : (r38 x).valid = true
    · simp only [firstInvalid, h, if_true, ih]
      constructor
      · rintro ⟨h1, h2, h3, h4⟩
        have e : k - i = (k - (i + 1)) + 1 := by omega
        refine ⟨by omega, by rw [e, List.getElem?_cons_succ]; exact h2, h3, fun j d hj hd => ?_⟩
        cases j with
        | zero => simp at hd; rw [← hd]; exact h
        | succ j => exact h4 j d (by omega) (by simpa using hd)
      · rintro ⟨h1, h2, h3, h4⟩
        have hk : i ≠ k := by
          rintro rfl
          simp at h2
          rw [h2, h3] at h
          cases h
        have e : k - i = (k - (i + 1)) + 1 := by omega
        rw [e, List.getElem?_cons_succ] at h2
        exact ⟨by omega, h2, h3, fun j d hj hd => h4 (j + 1) d (by omega) (by simpa using hd)⟩
    · simp only [Bool.not_eq_true] at h
      simp only [firstInvalid, h]
      constructor
      · intro e
        obtain ⟨rfl, rfl⟩ : x = c ∧ i = k := by simpa using e
        simp [h]
      · rintro ⟨h1, h2, h3, h4⟩
        have hk : i = k := by
          by_contra hne
          have := h4 0 x (by omega) (by simp)
          rw [h] at this
          cases this
        subst hk
        simp at h2
        simp [h2]

/-- The function `decode` by its tests in order, for input that is already cleaned. -/
theorem decodeText_of_valid {strip : Bool} {s : List Byte}
    (hv : ∀ c ∈ s.drop (prefixOffset strip s), (r38 c).valid = true) (h0 : s.drop (prefixOffset strip s) ≠ []) :
    decodeText strip s =
      match lastChunkLength ((s.drop (prefixOffset strip s)).length % 5) with
      | none => .err .invalidLength 0 (s.drop (prefixOffset strip s)).length
      | some last =>
        match decodeChunks (textChunks (s.drop (prefixOffset strip s)) last) with
        | some out => .ok out
        | none => .err .invalidLength 0 (s.drop (prefixOffset strip s)).length := by
  have hlen : ¬(s.drop (prefixOffset strip s)).length = 0 := fun h => h0 (List.length_eq_zero_iff.1 h)
  simp only [decodeText, firstInvalid_eq_none.2 hv]
  exact if_neg hlen

/-- A string of alphabet characters has no prefix to strip: the colon is not in the alphabet (30_encoding.md R95). -/
theorem prefixOffset_of_valid {strip : Bool} {s : List Byte} (hv : ∀ c ∈ s, (r38 c).valid = true) :
    prefixOffset strip s = 0 := by
  rw [prefixOffset, if_neg]
  rintro ⟨_, _, h⟩
  have : (0x3A#8) ∈ s := List.mem_of_mem_take (i := 3) (by rw [h]; decide)
  exact absurd (hv _ this) (by decide)

end Sys2Proof.Machine
end

