-- ==== Sys2Proof/Laws/Ops.lean ====
section
/-! SUPPORT. What each shared operation can do, said once: the busy guard, the buffers' reads, the operand, the completion. -/

namespace Sys2Proof.Machine

theorem Block.unlessBusy_of_idle {b : Block} (h : b.busy = false) (c : Block) : b.unlessBusy c = c := by
  simp [Block.unlessBusy, h]

theorem Block.unlessBusy_of_busy {b : Block} (h : b.busy = true) (c : Block) : b.unlessBusy c = b.drop := by
  simp [Block.unlessBusy, h]

/-- A guarded write does one of two things. -/
theorem Block.unlessBusy_cases (b c : Block) :
    (b.busy = true ∧ b.unlessBusy c = b.drop) ∨ (b.busy = false ∧ b.unlessBusy c = c) := by
  cases h : b.busy <;> simp [Block.unlessBusy, h]

theorem Block.ibufByte_setIbuf (b : Block) (i j : Nat) (v : Byte) :
    (b.setIbuf i v).ibufByte j = if j = i then v else b.ibufByte j := by
  simp only [Block.ibufByte, Block.setIbuf, Memory.cell?_store]
  split <;> rfl

/-- After a successful completion the output stands in `OBUF` and every other entry is as before. -/
theorem Block.obufByte_finish (b : Block) (out : List Byte) (j : Nat) :
    (b.finish out).obufByte j = if h : j < out.length then out[j] else b.obufByte j := by
  simp only [Block.obufByte, Block.finish, Memory.cell?_storeFrom]
  by_cases h : j < out.length
  · simp [h]
  · simp [h]

@[simp] theorem firstSymbols_length (buf : Nat → Byte) (L : Nat) : (firstSymbols buf L).length = L := by
  simp [firstSymbols]

@[simp] theorem firstSymbols_getElem (buf : Nat → Byte) (L i : Nat) (h : i < (firstSymbols buf L).length) :
    (firstSymbols buf L)[i] = buf i := by
  simp [firstSymbols]

/-- Two buffers that agree below `L` have the same first `L` symbols. -/
theorem firstSymbols_congr {f g : Nat → Byte} {L : Nat} (h : ∀ i, i < L → f i = g i) :
    firstSymbols f L = firstSymbols g L := by
  simp only [firstSymbols]
  exact List.map_congr_left fun i hi => h i (List.mem_range.1 hi)

theorem firstSymbols_eq_of_getElem {f : Nat → Byte} {l : List Byte}
    (h : ∀ i (hi : i < l.length), f i = l[i]) : firstSymbols f l.length = l := by
  apply List.ext_getElem (by simp)
  intro i h1 h2
  rw [firstSymbols_getElem, h i h2]

@[simp] theorem Block.input_length (b : Block) : b.input.length = b.ilen.toNat := by
  simp [Block.input, Block.inputLength]

theorem Block.onInput_of_le {b : Block} (h : b.ilen.toNat ≤ b.ibufSize) (f : List Byte → CommandResult) :
    b.onInput f = f b.input := by
  simp [Block.onInput, Block.inputLength, Nat.not_lt.2 h]

theorem Block.onInput_of_lt {b : Block} (h : b.ibufSize < b.ilen.toNat) (f : List Byte → CommandResult) :
    b.onInput f = .err .inputOverrun 0 0 := by
  simp [Block.onInput, Block.inputLength, h]

/-- The operand and its guard read the length, the size and the entries below the length, and nothing else. -/
theorem Block.onInput_congr {b c : Block} (hl : b.ilen = c.ilen) (hs : b.ibufSize = c.ibufSize)
    (hb : ∀ i, i < b.ilen.toNat → b.ibufByte i = c.ibufByte i) (f : List Byte → CommandResult) :
    b.onInput f = c.onInput f := by
  have : b.input = c.input := by
    simp only [Block.input, Block.inputLength, ← hl]; exact firstSymbols_congr hb
  simp only [Block.onInput, Block.inputLength, this, ← hl, hs]

/-- A launched command's result depends on the word, the length, the size and the entries below the length alone. -/
theorem commandResult_congr {b c : Block} (hw : b.cmd = c.cmd) (hl : b.ilen = c.ilen) (hs : b.ibufSize = c.ibufSize)
    (hb : ∀ i, i < b.ilen.toNat → b.ibufByte i = c.ibufByte i) : commandResult b = commandResult c := by
  simp only [commandResult, encResult, decResult, decnResult, ← hw, Block.onInput_congr hl hs hb]

theorem engineStep_of_busy {b : Block} (h : b.busy = true) : engineStep b = b.publish (commandResult b) := by
  simp [engineStep, h]

theorem engineStep_of_idle {b : Block} (h : b.busy = false) : engineStep b = b := by
  simp [engineStep, h]

/-- The completion does one of three things. -/
theorem engineStep_cases (b : Block) :
    (b.busy = false ∧ engineStep b = b) ∨
    (b.busy = true ∧ ∃ out, commandResult b = .ok out ∧ engineStep b = b.finish out) ∨
    (b.busy = true ∧ ∃ code ch pos, commandResult b = .err code ch pos ∧ engineStep b = b.enterError code ch pos) := by
  cases h : b.busy
  · exact .inl ⟨rfl, engineStep_of_idle h⟩
  · rw [engineStep_of_busy h]
    cases hr : commandResult b with
    | ok out => exact .inr (.inl ⟨rfl, out, rfl, rfl⟩)
    | err code ch pos => exact .inr (.inr ⟨rfl, code, ch, pos, rfl, rfl⟩)

/-- A write to the `IBUF` window of an idle block does one of two things. -/
theorem Block.writeSymbol_cases (b : Block) (i : Nat) (d : Word) :
    (d.extractLsb' 8 24 ≠ 0 ∧ b.writeSymbol i d = b.drop) ∨
    (d.extractLsb' 8 24 = 0 ∧ b.writeSymbol i d = b.setIbuf i (d.extractLsb' 0 8)) := by
  by_cases h : d.extractLsb' 8 24 = 0
  · exact .inr ⟨h, by simp [Block.writeSymbol, h]⟩
  · exact .inl ⟨h, if_pos h⟩

/-- A symbol widened to a word is written as that symbol. -/
theorem Block.writeSymbol_zextByte (b : Block) (i : Nat) (v : Byte) :
    b.writeSymbol i (zextByte v) = b.setIbuf i v := by
  have h1 : (zextByte v).extractLsb' 8 24 = 0 := by
    apply BitVec.eq_of_toNat_eq
    have := v.isLt
    simp [zextByte, BitVec.extractLsb'_toNat]
    omega
  have h2 : (zextByte v).extractLsb' 0 8 = v := by
    apply BitVec.eq_of_toNat_eq
    have := v.isLt
    simp [zextByte, BitVec.extractLsb'_toNat]
    omega
  simp [Block.writeSymbol, h1, h2]

end Sys2Proof.Machine
end

