-- ==== Sys2Proof/Laws/PerInstr.lean ====
section
/-! SUPPORT. Statements about every command as syntax, one lemma per constructor. -/

namespace Sys2Proof.Laws.LaunchClass

/-- The immediate commands are exactly those whose word is 0 or 4 (30_encoding.md R99, 40_commands.md R124). -/
def Statement (i : Instr) : Prop :=
  i.wellFormed = true → (i.commandClass = .immediate ↔ encode i = 0 ∨ encode i = 4)

theorem nop : Statement .nop := by intro; decide

theorem enc : Statement .enc := by intro; decide

theorem dec : Statement .dec := by intro; decide

theorem decn : Statement .decn := by intro; decide

theorem clr : Statement .clr := by intro; decide

theorem reserved (w : Word) : Statement (.reserved w) := by
  intro h
  simp only [Instr.wellFormed, isReservedWord, Bool.and_eq_true, bne_iff_ne, ne_eq] at h
  simp only [Instr.commandClass, encode, reduceCtorEq, false_iff, not_or]
  exact ⟨h.1.1.1.1, h.2⟩

end Sys2Proof.Laws.LaunchClass
end

