-- ==== Sys2Proof/Laws/Step.lean ====
section
/-! SUPPORT. What a command, a host access and a step can do, said once; and where each byte offset leads. -/

namespace Sys2Proof.Machine

/-- The effect of an accepted command on the block. -/
def Block.accepted (b : Block) : Instr → Block
  | .nop => b.record (encode .nop)
  | .enc => b.launch (encode .enc)
  | .dec => b.launch (encode .dec)
  | .decn => b.launch (encode .decn)
  | .clr => (b.record (encode .clr)).clearOutcome.clearHazard
  | .reserved w => b.launch w

/-- Every command answers a next state: dropped while busy, else its effect. -/
theorem exec_eq (i : Instr) (s : State) : exec i s = .next (s.withBlock (s.block.unlessBusy (s.block.accepted i))) := by
  cases i <;> rfl

/-- A write to a location other than `CMD` is dropped or changes the one thing its case names. -/
theorem writeAction_cases {s t : State} {d : Word} {l : Location} (h : writeAction s d l = .other t) :
    t = s.withBlock s.block.drop ∨
    (s.block.busy = false ∧ l = .ctrl ∧ t = s.withBlock (s.block.setIe d[0])) ∨
    (s.block.busy = false ∧ l = .ilen ∧ t = s.withBlock (s.block.setIlen d)) ∨
    (s.block.busy = false ∧ ∃ i, l = .ibuf i ∧ d.extractLsb' 8 24 = 0 ∧
      t = s.withBlock (s.block.setIbuf i (d.extractLsb' 0 8))) := by
  cases l with
  | ctrl =>
    obtain rfl : _ = t := by simpa [writeAction] using h
    rcases s.block.unlessBusy_cases (s.block.setIe d[0]) with ⟨_, e⟩ | ⟨hb, e⟩
    · exact .inl (by rw [e])
    · exact .inr (.inl ⟨hb, rfl, by rw [e]⟩)
  | ilen =>
    obtain rfl : _ = t := by simpa [writeAction] using h
    rcases s.block.unlessBusy_cases (s.block.setIlen d) with ⟨_, e⟩ | ⟨hb, e⟩
    · exact .inl (by rw [e])
    · exact .inr (.inr (.inl ⟨hb, rfl, by rw [e]⟩))
  | ibuf i =>
    obtain rfl : _ = t := by simpa [writeAction] using h
    rcases s.block.unlessBusy_cases (s.block.writeSymbol i d) with ⟨_, e⟩ | ⟨hb, e⟩
    · exact .inl (by rw [e])
    · rcases s.block.writeSymbol_cases i d with ⟨_, e'⟩ | ⟨hd, e'⟩
      · exact .inl (by rw [e, e'])
      · exact .inr (.inr (.inr ⟨hb, i, rfl, hd, by rw [e, e']⟩))
  | cmd => simp [writeAction] at h
  | _ => exact .inl (by simpa [writeAction, eq_comm] using h)

theorem writeAction_eq_command {s t : State} {d : Word} {l : Location} {i : Instr}
    (h : writeAction s d l = .command i t) : l = .cmd ∧ i = decode d ∧ t = s := by
  cases l <;> simp_all [writeAction]

/-- Everything a step can do. -/
theorem step_cases {s t : State} (h : step s = .next t) :
    (s.pending = [] ∧ t = s.withBlock (engineStep s.block)) ∨
    ∃ e rest, s.pending = e :: rest ∧
      ((∃ a, e = .hostRead a ∧ t = (s.withPending rest).reply (memRead s.block a)) ∨
       (e = .hostReset ∧ t = (s.withPending rest).withBlock s.block.resetStep) ∨
       (e = .engineCompletion ∧ t = (s.withPending rest).withBlock (engineStep s.block)) ∨
       (∃ a d, e = .hostWrite a d ∧ locate s.block.ibufSize a = .cmd ∧
          t = (s.withPending rest).withBlock (s.block.unlessBusy (s.block.accepted (decode d)))) ∨
       (∃ a d, e = .hostWrite a d ∧
          writeAction (s.withPending rest) d (locate s.block.ibufSize a) = .other t)) := by
  cases hp : s.pending with
  | nil =>
    left
    have : step s = .next (s.withBlock (engineStep s.block)) := by simp [step, nextAction, hp]
    rw [this] at h
    exact ⟨rfl, by simpa [eq_comm] using h⟩
  | cons e rest =>
    right
    refine ⟨e, rest, rfl, ?_⟩
    have hs : nextAction s = agentAction (s.withPending rest) e := by simp [nextAction, hp]
    cases e with
    | hostRead a => exact .inl ⟨a, rfl, by simpa [step, hs, agentAction, eq_comm] using h⟩
    | hostReset => exact .inr (.inl ⟨rfl, by simpa [step, hs, agentAction, eq_comm] using h⟩)
    | engineCompletion => exact .inr (.inr (.inl ⟨rfl, by simpa [step, hs, agentAction, eq_comm] using h⟩))
    | hostWrite a d =>
      simp only [step, hs, agentAction, State.withPending_block] at h
      cases hw : writeAction (s.withPending rest) d (locate s.block.ibufSize a) with
      | command i u =>
        obtain ⟨hl, rfl, rfl⟩ := writeAction_eq_command hw
        simp only [hw, exec_eq, Host.Outcome.next.injEq] at h
        exact .inr (.inr (.inr (.inl ⟨a, d, rfl, hl, h.symm⟩)))
      | other u =>
        simp only [hw, Host.Outcome.next.injEq] at h
        exact .inr (.inr (.inr (.inr ⟨a, d, rfl, h ▸ hw⟩)))

/-- A step in terms of what comes next, for a pending list that is known. -/
theorem step_of_pending {s : State} {e : AgentStep} {rest : List AgentStep} (h : s.pending = e :: rest) :
    step s = (match agentAction (s.withPending rest) e with
      | .command i t => exec i t
      | .other t => .next t) := by
  have e : nextAction s = agentAction (s.withPending rest) e := by simp [nextAction, h]
  exact congrArg (fun a => match a with
    | .command i t => exec i t
    | .other t => .next t) e

/-- The word index of a byte offset inside the port's range. -/
theorem wordIndex_toNat {off : Nat} (h : off < 0x4000) : (wordIndex off).toNat = off / 4 := by
  simp [wordIndex, BitVec.toNat_ofNat]; omega

theorem locate_cmd (n : Nat) : locate n (wordIndex 0x0008) = .cmd := rfl

theorem locate_ilen (n : Nat) : locate n (wordIndex 0x000C) = .ilen := rfl

theorem locate_ctrl (n : Nat) : locate n (wordIndex 0x0000) = .ctrl := rfl

/-- The `IBUF` window (20_memory.md R61). -/
theorem locate_ibuf {n i : Nat} (h : i < 1024) :
    locate n (wordIndex (ibufOffset i)) = if i < n then .ibuf i else .unmapped := by
  have h1 : (wordIndex (ibufOffset i)).toNat = 0x400 + i := by
    rw [wordIndex_toNat (by simp only [ibufOffset]; omega), ibufOffset]; omega
  rw [locate, h1, if_neg (by omega), if_pos (by omega), Nat.add_sub_cancel_left]

/-- The `OBUF` window (20_memory.md R61). -/
theorem locate_obuf {n j : Nat} (h : j < 2048) :
    locate n (wordIndex (obufOffset j)) = if j < Config.obufSize n then .obuf j else .unmapped := by
  have h1 : (wordIndex (obufOffset j)).toNat = 0x800 + j := by
    rw [wordIndex_toNat (by simp only [obufOffset]; omega), obufOffset]; omega
  rw [locate, h1, if_neg (by omega), if_neg (by omega), Nat.add_sub_cancel_left]

theorem locate_low {n : Nat} {a : PortIndex} (h : a.toNat < 0x400) : locate n a = registerAt a.toNat := if_pos h

/-- No register stands above `CAP` (20_memory.md R61). -/
theorem registerAt_high {k : Nat} (h : 9 ≤ k) : registerAt k = .unmapped := by
  unfold registerAt
  repeat rw [if_neg (by omega)]

/-- A register location of an index is the register of that index, and the index is low. -/
theorem locate_eq_register {n : Nat} {a : PortIndex} {l : Location} (h : locate n a = l)
    (hi : ∀ i, l ≠ .ibuf i) (ho : ∀ j, l ≠ .obuf j) (hu : l ≠ .unmapped) : registerAt a.toNat = l := by
  unfold locate at h
  by_cases h1 : a.toNat < 0x400
  · rwa [if_pos h1] at h
  · rw [if_neg h1] at h
    by_cases h2 : a.toNat < 0x800
    · rw [if_pos h2] at h
      by_cases h3 : a.toNat - 0x400 < n
      · rw [if_pos h3] at h; exact absurd h.symm (hi _)
      · rw [if_neg h3] at h; exact absurd h.symm hu
    · rw [if_neg h2] at h
      by_cases h3 : a.toNat - 0x800 < Config.obufSize n
      · rw [if_pos h3] at h; exact absurd h.symm (ho _)
      · rw [if_neg h3] at h; exact absurd h.symm hu

/-- Only its own index leads to a writable register. -/
theorem registerAt_inj {k : Nat} :
    (registerAt k = .ctrl → k = 0) ∧ (registerAt k = .cmd → k = 2) ∧ (registerAt k = .ilen → k = 3) := by
  by_cases h : k < 9
  · interval_cases k <;> decide
  · simp [registerAt_high (show 9 ≤ k by omega)]

theorem locate_eq_ctrl {n : Nat} {a : PortIndex} (h : locate n a = .ctrl) : a = wordIndex 0x0000 :=
  BitVec.eq_of_toNat_eq (registerAt_inj.1 (locate_eq_register h (by simp) (by simp) (by simp)))

theorem locate_eq_cmd {n : Nat} {a : PortIndex} (h : locate n a = .cmd) : a = wordIndex 0x0008 :=
  BitVec.eq_of_toNat_eq (registerAt_inj.2.1 (locate_eq_register h (by simp) (by simp) (by simp)))

theorem locate_eq_ilen {n : Nat} {a : PortIndex} (h : locate n a = .ilen) : a = wordIndex 0x000C :=
  BitVec.eq_of_toNat_eq (registerAt_inj.2.2 (locate_eq_register h (by simp) (by simp) (by simp)))

/-- An index that leads to `IBUF[i]` is the window's index of `i`, and `i` is inside the buffer. -/
theorem locate_eq_ibuf {n i : Nat} {a : PortIndex} (h : locate n a = .ibuf i) :
    a = wordIndex (ibufOffset i) ∧ i < n ∧ i < 1024 := by
  have hr : ∀ k, registerAt k ≠ .ibuf i := by
    intro k
    by_cases hk : k < 9
    · interval_cases k <;> exact Location.noConfusion
    · rw [registerAt_high (by omega)]; exact Location.noConfusion
  unfold locate at h
  by_cases h1 : a.toNat < 0x400
  · rw [if_pos h1] at h; exact absurd h (hr _)
  · rw [if_neg h1] at h
    by_cases h2 : a.toNat < 0x800
    · rw [if_pos h2] at h
      by_cases h3 : a.toNat - 0x400 < n
      · rw [if_pos h3, Location.ibuf.injEq] at h
        refine ⟨BitVec.eq_of_toNat_eq ?_, by omega, by omega⟩
        rw [wordIndex_toNat (by simp only [ibufOffset]; omega), ibufOffset]
        omega
      · rw [if_neg h3] at h; exact absurd h (by simp)
    · rw [if_neg h2] at h
      by_cases h3 : a.toNat - 0x800 < Config.obufSize n
      · rw [if_pos h3] at h; exact absurd h (by simp)
      · rw [if_neg h3] at h; exact absurd h (by simp)

end Sys2Proof.Machine
end

