-- ==== Sys2Proof/Tests/Slice0.lean ====
section
/-! SUPPORT. The model's own tests: the well-formedness smoke, written-out words, small steps taken from 95_test_vectors.md,
and for every statement with hypotheses a state and operands that meet them. -/

open Sys2Proof Sys2Proof.Machine

namespace Sys2Proof.Tests

/-- The machine around a block, with these coming agent steps. -/
def around (b : Block) (p : List AgentStep) : Machine.State := { block := b, pending := p, replies := [] }

/-- The block after a step, if the step has a next state. -/
def blockAfter (s : Machine.State) : Option Block :=
  match step s with
  | .next t => some t.block
  | .fault _ => none
  | .refused _ => none

/-- The words read so far after a step. -/
def repliesAfter (s : Machine.State) : List Word :=
  match step s with
  | .next t => t.replies
  | .fault _ => []
  | .refused _ => []

/-- The reference configuration after reset. -/
def idle : Block := Block.afterReset 1024

/-- A running `ENC` of one byte 255, interrupts enabled: the start state of vector K6. -/
def encoding : Block :=
  { idle with ie := true, busy := true, cmd := 1, ilen := 1, ibuf := [(0, 0xFF#8)] }

/-- What vector K6 ends in: `R6` in `OBUF`. -/
def encoded : Block :=
  { encoding with busy := false, done := true, olen := 2, obuf := [(0, 0x52#8), (1, 0x36#8)] }

/-- A running `DEC` of the symbols `0`: the start state of vector K7. -/
def decoding : Block := { idle with busy := true, cmd := 2, ilen := 1, ibuf := [(0, 0x30#8)] }

/-- A failed `DECN` of `MT:R6`, the hazard flag set: vector D20. -/
def failedDecn : Block :=
  { idle with
    ie := true, done := true, err := true, hzd := true, cmd := 3, ilen := 5, ecode := .invalidCharacter
    echar := 0x3A#8, epos := 2
    ibuf := [(0, 0x4D#8), (1, 0x54#8), (2, 0x3A#8), (3, 0x52#8), (4, 0x36#8)] }

/-- A small configuration: `IBUF_SIZE = 16`, vector H17. -/
def small : Block := Block.afterReset 16

/-! ### Well-formedness: the words of the five commands are not reserved (30_encoding.md R99, R100) -/

theorem test_reserved_nop_ill_formed : (Instr.reserved 0#32).wellFormed = false := by decide
theorem test_reserved_enc_ill_formed : (Instr.reserved 1#32).wellFormed = false := by decide
theorem test_reserved_dec_ill_formed : (Instr.reserved 2#32).wellFormed = false := by decide
theorem test_reserved_decn_ill_formed : (Instr.reserved 3#32).wellFormed = false := by decide
theorem test_reserved_clr_ill_formed : (Instr.reserved 4#32).wellFormed = false := by decide

/-! ### Words written out from 30_encoding.md R98, R99: `zero` in bits 31:8, `op` in bits 7:0 -/

theorem test_word_nop : decode (0b000000000000000000000000#24 ++ 0b00000000#8) = .nop := by decide
theorem test_word_enc : decode (0b000000000000000000000000#24 ++ 0b00000001#8) = .enc := by decide
theorem test_word_dec : decode (0b000000000000000000000000#24 ++ 0b00000010#8) = .dec := by decide
theorem test_word_decn : decode (0b000000000000000000000000#24 ++ 0b00000011#8) = .decn := by decide
theorem test_word_clr : decode (0b000000000000000000000000#24 ++ 0b00000100#8) = .clr := by decide
/-- K9: `op` = 1 with `zero` not 0 is no `ENC`. -/
theorem test_word_reserved :
    decode (0b000000000000000000000001#24 ++ 0b00000001#8) = .reserved 0x00000101#32 := by decide
theorem test_table_word : decodeTableWord 32 0x00000003 = some .decn := by decide
theorem test_table_word_reserved : decodeTableWord 32 0x80000000 = some (.reserved 0x80000000#32) := by decide
theorem test_table_word_too_wide : decodeTableWord 64 0x0000000300000000 = none := by decide

/-! ### The codec (95_test_vectors.md 2.3 to 2.5) -/

/-- E21, E6: the largest chunk, then a tail of one byte. -/
theorem test_encode_chunk_and_tail :
    encodeBytes [0xFF#8, 0xFF#8, 0xFF#8, 0xFF#8] = [0x50#8, 0x4C#8, 0x53#8, 0x31#8, 0x38#8, 0x52#8, 0x36#8] := by decide
/-- E11: byte 1 is the high byte. -/
theorem test_encode_byte_order : encodeBytes [0x00#8, 0x01#8] = [0x53#8, 0x36#8, 0x30#8, 0x30#8] := by decide
/-- D20 with `DEC`. -/
theorem test_decode_prefix : decodeText true [0x4D#8, 0x54#8, 0x3A#8, 0x52#8, 0x36#8] = .ok [0xFF#8] := by decide
/-- D18: the largest accumulator value, cut to three bytes. -/
theorem test_decode_truncates :
    decodeText true [0x2E#8, 0x2E#8, 0x2E#8, 0x2E#8, 0x2E#8] = .ok [0x5F#8, 0x08#8, 0xB9#8] := by decide
/-- D20 with `DECN`. -/
theorem test_decode_plain_reports_colon :
    decodeText false [0x4D#8, 0x54#8, 0x3A#8, 0x52#8, 0x36#8] = .err .invalidCharacter 0x3A#8 2 := by decide
/-- D12: chunks are cut from the start. -/
theorem test_decode_cuts_from_start :
    decodeText false [0x52#8, 0x36#8, 0x30#8, 0x30#8, 0x30#8, 0x30#8, 0x30#8] =
      .ok [0xFF#8, 0x00#8, 0x00#8, 0x00#8] := by decide

/-! ### Commands, one step each (95_test_vectors.md 2.2) -/

/-- K2: `NOP` keeps the result and records its word. -/
theorem test_nop_keeps_result : blockAfter (around encoded [issueWord 0]) = some { encoded with cmd := 0 } := by decide
/-- K5: a launch keeps the hazard flag and the buffers and clears the outcome. -/
theorem test_enc_launch :
    blockAfter (around { encoded with hzd := true } [issueWord 1]) =
      some { encoded with hzd := true, cmd := 1, busy := true, done := false, olen := 0 } := by decide
/-- K6. -/
theorem test_enc_completion : blockAfter (around encoding [.engineCompletion]) = some encoded := by decide
/-- K6: the interrupt rises; K5: a launch takes it down. -/
theorem test_irq : encoded.irq = true ∧ encoding.irq = false := by decide
/-- K7. -/
theorem test_dec_completion :
    blockAfter (around decoding []) =
      some { decoding with busy := false, done := true, err := true, ecode := .invalidLength, epos := 1 } := by decide
/-- D20. -/
theorem test_decn_completion :
    blockAfter (around { failedDecn with busy := true, done := false, err := false, ecode := .none, echar := 0, epos := 0 }
      [.engineCompletion]) = some failedDecn := by decide
/-- K3. -/
theorem test_clr :
    blockAfter (around failedDecn [issueWord 4]) =
      some { failedDecn with
        cmd := 4, done := false, err := false, hzd := false, ecode := .none, echar := 0, epos := 0 } := by decide
/-- H14: `CLR` cannot cancel a running command. -/
theorem test_clr_while_busy : blockAfter (around encoding [issueWord 4]) = some { encoding with hzd := true } := by decide
/-- K9. -/
theorem test_reserved_launch :
    blockAfter (around idle [issueWord 0x101]) = some { idle with cmd := 0x101, busy := true } := by decide
/-- K9: `BadCommand`. -/
theorem test_reserved_completion :
    blockAfter (around { idle with cmd := 0x101, busy := true } [.engineCompletion]) =
      some { idle with cmd := 0x101, done := true, err := true, ecode := .badCommand } := by decide
/-- 2.3: `ILEN` one above the buffer's size. -/
theorem test_input_overrun :
    blockAfter (around { encoding with ilen := 1025 } [.engineCompletion]) =
      some { encoding with ilen := 1025, busy := false, done := true, err := true, ecode := .inputOverrun } := by decide
/-- The word placed by `withFetchWord` is the next step's command. -/
theorem test_with_fetch_word : blockAfter (State.reset.withFetchWord 32 2) = some { idle with cmd := 2, busy := true } := by
  decide

/-! ### The host port (95_test_vectors.md 2.1) -/

/-- H2, H17. -/
theorem test_cap : memRead idle (wordIndex 0x20) = 0x06AB0400#32 ∧ memRead small (wordIndex 0x20) = 0x001B0010#32 := by
  decide
/-- K3 and D20: `STATUS = 0xE`, `EPOS = 2`. -/
theorem test_error_words :
    memRead failedDecn (wordIndex 0x04) = 0xE#32 ∧ memRead failedDecn (wordIndex 0x14) = 1#32 ∧
      memRead failedDecn (wordIndex 0x18) = 0x3A#32 ∧ memRead failedDecn (wordIndex 0x1C) = 2#32 := by decide
/-- H16: the last symbol below `OLEN`, then 0. -/
theorem test_obuf_window :
    memRead encoded (wordIndex 0x2004) = 0x36#32 ∧ memRead encoded (wordIndex 0x2008) = 0#32 := by decide
/-- A read is answered and changes nothing. -/
theorem test_read_step :
    repliesAfter (around encoded [.hostRead (wordIndex 0x2000)]) = [0x52#32] ∧
      blockAfter (around encoded [.hostRead (wordIndex 0x2000)]) = some encoded := by decide
/-- H5, H6: only bit 0 of a `CTRL` write counts. -/
theorem test_ctrl_write :
    blockAfter (around idle [.hostWrite (wordIndex 0) 0xFFFFFFFF]) = some { idle with ie := true } ∧
      blockAfter (around encoded [.hostWrite (wordIndex 0) 0xFFFFFFFE]) = some { encoded with ie := false } := by decide
/-- H8, H11. -/
theorem test_ibuf_write :
    blockAfter (around idle [.hostWrite (wordIndex 0x1FFC) 0x2E]) = some { idle with ibuf := [(1023, 0x2E#8)] } := by decide
/-- H9, H10: not truncated, not clamped. -/
theorem test_ibuf_write_out_of_range :
    blockAfter (around encoded [.hostWrite (wordIndex 0x1000) 0x100]) = some { encoded with hzd := true } ∧
      blockAfter (around encoded [.hostWrite (wordIndex 0x1000) 0xFFFFFFFF]) = some { encoded with hzd := true } := by decide
/-- H17: one entry past a small buffer. -/
theorem test_ibuf_write_unmapped :
    blockAfter (around small [.hostWrite (wordIndex 0x1040) 0]) = some { small with hzd := true } := by decide
/-- Reset while a command runs (95_test_vectors.md Z series, 70_reset_and_hazards.md R266). -/
theorem test_reset_step :
    blockAfter (around encoding [.hostReset]) = some { idle with resets := 1 } := by decide
/-- E22: the encoder's micro-sequence from arbitrary hidden registers. -/
theorem test_encoder_micro :
    (encMicro (fun i => BitVec.ofNat 8 (i + 1)) 4
      { regs := { val := 5, acc := 6, off := 1, rp := 7, wp := 8, cl := 2 }, obuf := [] }).obuf =
      [(0, 0x46#8), (1, 0x4A#8), (2, 0x4D#8), (3, 0x33#8), (4, 0x30#8), (5, 0x34#8), (6, 0x30#8)] := by decide

/-! ### Witnesses: for every statement with hypotheses, a state and operands that meet them -/

/-- The invariant holds of a running command. -/
theorem encoding_inv : encoding.Inv where
  flags := ⟨by decide, by decide, by decide, by decide, by decide, by decide⟩
  records := ⟨by decide, by decide, by decide⟩
  buffers := ⟨by decide, by decide, by decide, by decide, by decide, by decide⟩
  launch := fun _ => by decide

/-- The invariant holds after a success. -/
theorem encoded_inv : encoded.Inv where
  flags := ⟨by decide, by decide, by decide, by decide, by decide, by decide⟩
  records := ⟨by decide, by decide, by decide⟩
  buffers := ⟨by decide, by decide, by decide, by decide, by decide, by decide⟩
  launch := fun _ => by decide

/-- The invariant holds after an error. -/
theorem failed_inv : failedDecn.Inv where
  flags := ⟨by decide, by decide, by decide, by decide, by decide, by decide⟩
  records := ⟨by decide, by decide, by decide⟩
  buffers := ⟨by decide, by decide, by decide, by decide, by decide, by decide⟩
  launch := fun _ => by decide

theorem witness_StepRunsTheDecodedCommand :
    (around encoded [issueWord 1, .engineCompletion]).pending = issueWord 1 :: [.engineCompletion] := rfl

theorem witness_DecodeOfEncodeIsTheCommand :
    Instr.dec.wellFormed = true ∧ (Instr.reserved 5).wellFormed = true ∧ (Instr.reserved 0xFFFFFFFF).wellFormed = true := by
  decide

theorem witness_ReservedWordsByField :
    (5 ≤ (opField 5).toNat ∧ zeroField 5 = 0) ∧ ((opField 0x100).toNat = 0 ∧ zeroField 0x100 ≠ 0) ∧
      ((opField 4).toNat = 4 ∧ zeroField 4 = 0) := by decide

theorem witness_ReverseTableInvertsAlphabet :
    a38 9 = 0x39#8 ∧ a38 10 = 0x41#8 ∧ a38 35 = 0x5A#8 ∧ a38 36 = 0x2D#8 ∧ (r38 0x2D#8).valid = true ∧ (r38 0x3A#8).valid = false ∧ (r38 0x5B#8).valid = false := by decide

theorem witness_DivideChainHoldsTheWholeValue :
    (1 ≤ [0xFF#8].length ∧ [0xFF#8].length ≤ 3) ∧ (1 ≤ [0xFF#8, 0xFF#8, 0xFF#8].length ∧
      [0xFF#8, 0xFF#8, 0xFF#8].length ≤ 3) := by decide

theorem witness_ByteChunksEncodeIndependently : [0x01#8, 0x02#8, 0x03#8].length % 3 = 0 := by decide

theorem witness_EncodeStaysInTheAlphabet : (0x36#8) ∈ encodeBytes [0xFF#8] := by decide

theorem witness_EncodeIsInjectiveNotOnto : encodeBytes [0xA3#8] = encodeBytes [0xA3#8] := by decide

theorem witness_PrefixIsStrippedAtMostOnce :
    [0x52#8, 0x36#8].take 3 ≠ pfx ∧ [0x4D#8, 0x54#8, 0x3B#8, 0x36#8].take 3 ≠ pfx := by decide

theorem witness_InvalidCharacterIsTheFirstOffender :
    decodeText true [0x4D#8, 0x54#8, 0x3A#8, 0x61#8] = .err .invalidCharacter 0x61#8 3 ∧
      decodeText false [0x61#8, 0x30#8, 0x21#8] = .err .invalidCharacter 0x61#8 0 := by decide

theorem witness_InvalidLengthIsTheCleanedCount :
    decodeText true [0x4D#8, 0x54#8, 0x3A#8, 0x30#8] = .err .invalidLength 0 1 ∧
      decodeText false [0x30#8, 0x30#8, 0x30#8] = .err .invalidLength 0 3 := by decide

theorem witness_DecodeSucceedsExactlyOnValidText :
    decodeText true [0x4D#8, 0x54#8, 0x3A#8] = .ok [] ∧ decodeText false [0x52#8, 0x36#8] = .ok [0xFF#8] := by decide

theorem witness_TextChunksDecodeIndependently :
    [0x46#8, 0x4A#8, 0x4D#8, 0x33#8, 0x30#8].length % 5 = 0 ∧
      decodeText false [0x46#8, 0x4A#8, 0x4D#8, 0x33#8, 0x30#8] = .ok [1, 2, 3] ∧
      decodeText false [0x52#8, 0x36#8] = .ok [0xFF#8] := by decide

theorem witness_OverRangeChunksAreTruncated :
    allValid [0x2E#8, 0x2E#8] ∧ bytesFor [0x2E#8, 0x2E#8].length = some 1 ∧
      allValid [0x2E#8, 0x2E#8, 0x2E#8, 0x2E#8, 0x2E#8] ∧
      bytesFor [0x2E#8, 0x2E#8, 0x2E#8, 0x2E#8, 0x2E#8].length = some 3 := by decide

theorem witness_LengthMappingsAreInverse : bytesFor 3 = none ∧ charsNeeded 3 = some 5 ∧ bytesFor 5 = some 3 ∧ charsNeeded 0 = none := by decide

theorem witness_NopOnlyRecordsItsWord :
    (around encoded []).block.busy = false ∧ (around encoding []).block.busy = true := by decide

theorem witness_ClrClearsOutcomeAndHazard :
    (around failedDecn []).block.busy = false ∧ (around encoding []).block.busy = true := by decide

theorem witness_LaunchingCommandsLaunch :
    Instr.enc.commandClass = .launching ∧ Instr.dec.commandClass = .launching ∧ Instr.decn.commandClass = .launching ∧
      (Instr.reserved 5).commandClass = .launching ∧ (Instr.reserved 5).wellFormed = true ∧ Instr.enc.wellFormed = true ∧
      (around encoded []).block.busy = false := by decide

theorem witness_CommandsWhileBusyAreDropped : (around encoding []).block.busy = true := by decide

/-- `ILEN` at the boundary of the two branches. -/
theorem witness_EncEndsWithTheEncoding :
    (∀ n ∈ [1024#32, 1025#32], (around { encoded with ilen := n } [.engineCompletion]).block.busy = false ∧
      Config.legalIbufSize (around { encoded with ilen := n } [.engineCompletion]).block.ibufSize ∧
      (around { encoded with ilen := n } [.engineCompletion]).pending = .engineCompletion :: []) :=
  fun _ _ => ⟨rfl, (⟨by decide, by decide⟩ : Config.legalIbufSize 1024), rfl⟩

/-- A text inside the buffer, and `ILEN` at the boundary of the two branches in the small configuration. -/
theorem witness_DecEndsWithTheDecoding :
    ∀ b ∈ [failedDecn, { small with ilen := 16 }, { small with ilen := 17 }],
      (around b [.engineCompletion]).block.busy = false ∧
        Config.legalIbufSize (around b [.engineCompletion]).block.ibufSize ∧
        (around b [.engineCompletion]).pending = .engineCompletion :: [] := by decide

/-- A text inside the buffer, and `ILEN` at the boundary of the two branches in the small configuration. -/
theorem witness_DecnEndsWithThePlainDecoding :
    ∀ b ∈ [failedDecn, { small with ilen := 16 }, { small with ilen := 17 }],
      (around b [.engineCompletion]).block.busy = false ∧
        Config.legalIbufSize (around b [.engineCompletion]).block.ibufSize ∧
        (around b [.engineCompletion]).pending = .engineCompletion :: [] := by decide

theorem witness_ReservedWordEndsWithBadCommand :
    isReservedWord 5 = true ∧ isReservedWord 0xFFFFFFFF = true ∧ (around encoded [.engineCompletion]).block.busy = false ∧
      (around encoded [.engineCompletion]).pending = .engineCompletion :: [] := by decide

theorem witness_ResultIsAFunctionOfWordLengthInput :
    ({ encoding with cmd := 5 }.cmd ≠ 1 ∧ { encoding with cmd := 5 }.cmd ≠ 2 ∧ { encoding with cmd := 5 }.cmd ≠ 3) ∧
      (encoding.cmd = 1 ∧ { encoding with ilen := 1025 }.ibufSize < ({ encoding with ilen := 1025 } : Block).ilen.toNat) ∧
      ({ encoding with ilen := 1024 } : Block).ilen.toNat ≤ encoding.ibufSize ∧ decoding.cmd = 2 ∧ failedDecn.cmd = 3 := by
  decide

/-- The same command, length and operand in two blocks that differ in everything else. -/
theorem witness_ResultIsAFunctionOfWordLengthInput_congr :
    encoding.cmd = { encoded with hzd := true }.cmd ∧ encoding.ilen = { encoded with hzd := true }.ilen ∧
      encoding.ibufSize = { encoded with hzd := true }.ibufSize ∧
      (∀ i, i < encoding.ilen.toNat → encoding.ibufByte i = { encoded with hzd := true }.ibufByte i) :=
  ⟨rfl, rfl, rfl, fun _ _ => rfl⟩

theorem witness_OutputAlwaysFits : commandResult encoding = .ok [0x52#8, 0x36#8] := by decide

theorem witness_CompletionPublishesTheResult :
    (around encoding [.engineCompletion]).block.Inv ∧ (around encoding [.engineCompletion]).block.busy = true ∧
      (around encoding [.engineCompletion]).pending = .engineCompletion :: [] :=
  ⟨encoding_inv, rfl, rfl⟩

/-- A reserved word with too long an input; too long an input; the first offender of `a0!`; one valid symbol. -/
theorem witness_ErrorPriority :
    isReservedWord { idle with cmd := 0x101, ilen := 1025 }.cmd = true ∧
      ({ idle with cmd := 3, ilen := 1025 }.cmd = 3 ∧
        idle.ibufSize < ({ idle with cmd := 3, ilen := 1025 } : Block).ilen.toNat) ∧
      (prefixOffset false ({ idle with cmd := 3, ilen := 3, ibuf := [(0, 0x61#8), (1, 0x30#8), (2, 0x21#8)] } : Block).input
          ≤ 0 ∧
        (r38 (({ idle with ibuf := [(0, 0x61#8), (1, 0x30#8), (2, 0x21#8)] } : Block).ibufByte 0)).valid = false) ∧
      (decoding.cmd = 2 ∧ decoding.ilen.toNat ≤ decoding.ibufSize ∧
        (∀ k, k < decoding.ilen.toNat → prefixOffset true decoding.input ≤ k → (r38 (decoding.ibufByte k)).valid = true) ∧
        ¬ legalTextLength (decoding.ilen.toNat - prefixOffset true decoding.input)) := by decide

theorem witness_EngineStepsOnlyWhileBusy :
    ((around encoded []).block.busy = false ∧ (around encoded []).pending = []) ∧
      ((around encoded [.engineCompletion]).block.busy = false ∧
        (around encoded [.engineCompletion]).pending = .engineCompletion :: []) ∧
      ((around encoding []).block.busy = true ∧ (around encoding []).pending = []) := by decide

/-- The physical entry 2 lies beyond the two symbols of the output; a list that names the completion and an empty one. -/
theorem witness_UnreadableOutputEntriesKeepTheirContent :
    Instr.enc.wellFormed = true ∧ Instr.enc.commandClass = .launching ∧ encoded.busy = false ∧
      (around encoded [.engineCompletion]).engineNext ∧ (around encoded []).engineNext ∧
      (∃ t, exec .enc (around encoded [.engineCompletion]) = .next t ∧
        ∀ out, commandResult t.block = .ok out → out.length ≤ 2) :=
  ⟨rfl, rfl, rfl, .inr ⟨[], rfl⟩, .inl rfl, _, rfl, fun out h => by
    have : commandResult (encoded.launch 1) = .ok [0x52#8, 0x36#8] := by decide
    obtain rfl := CommandResult.ok.inj (this.symm.trans h)
    decide⟩

theorem witness_UnreadableOutputEntriesKeepTheirContent_changed :
    ∃ t, step (around { encoding with obuf := [(0, 0x30#8)] } [.engineCompletion]) = .next t ∧
      t.block.obufByte 0 ≠ ({ encoding with obuf := [(0, 0x30#8)] } : Block).obufByte 0 :=
  ⟨_, rfl, by decide⟩

/-- The first and the last entry of each range, in the reference configuration and the small one. -/
theorem witness_HostReadTable :
    (0 < idle.ibufSize ∧ 1023 < idle.ibufSize ∧ 1023 < 1024) ∧
      (0 < Config.encLen idle.ibufSize ∧ 1706 < Config.encLen idle.ibufSize ∧ 1706 < 2048) ∧
      (0x0024 ≤ 4 * 9 ∧ 4 * 9 < 0x1000 ∧ 4 * 1023 < 0x1000) ∧
      (small.ibufSize ≤ 16 ∧ small.ibufSize ≤ 1023) ∧
      (Config.encLen idle.ibufSize ≤ 1707 ∧ Config.encLen small.ibufSize ≤ 27 ∧ Config.encLen idle.ibufSize ≤ 2047) := by
  decide

/-- Each code of `ECODE`. -/
theorem witness_HostReadTable_ecode :
    idle.ecode = .none ∧ failedDecn.ecode = .invalidCharacter ∧ { idle with ecode := .invalidLength }.ecode = .invalidLength ∧
      { idle with ecode := .badCommand }.ecode = .badCommand ∧
      { idle with ecode := .inputOverrun }.ecode = .inputOverrun := by decide

/-- The clauses at their boundaries: the busy and the idle case, the two sides of 256. -/
theorem witness_HostWriteTable :
    0x0020 ∈ [0x0004, 0x0010, 0x0014, 0x0018, 0x001C, 0x0020] ∧ (0x0024 ≤ 4 * 9 ∧ 4 * 1023 < 0x1000) ∧
      (small.ibufSize ≤ 16 ∧ 16 < 1024) ∧ 2047 < 2048 ∧
      (encoding.busy = true ∧ 0x000C ∈ [0x0000, 0x0008, 0x000C]) ∧
      (encoded.busy = false ∧ 1023 < encoded.ibufSize ∧ 256 ≤ (0x100#32).toNat ∧ (0xFF#32).toNat < 256) := by decide

theorem witness_RepeatedWritesAreIdempotent :
    wordIndex 0x000C ≠ wordIndex 0x0008 ∧ (around idle []).becomes (wordIndex 0x000C) 5 (idle.setIlen 5) :=
  ⟨by decide, fun _ => rfl⟩

/-- One drop for each cause of 60_exceptions.md R230. -/
theorem witness_HazardFlagRecordsDroppedWrites :
    encoding.drops (wordIndex 0x0000) 1 = true ∧ encoded.drops (wordIndex 0x2000) 0x41 = true ∧
      small.drops (wordIndex 0x1040) 0 = true ∧ encoded.drops (wordIndex 0x1000) 0x100 = true := by decide

theorem witness_HazardFlagRecordsDroppedWrites_set :
    ∃ t, step (around encoded [.hostWrite (wordIndex 0x0020) 0]) = .next t ∧ encoded.hzd = false ∧ t.block.hzd = true :=
  ⟨_, rfl, rfl, rfl⟩

theorem witness_HazardFlagRecordsDroppedWrites_cleared :
    ∃ t, step (around failedDecn [issueWord 4]) = .next t ∧ failedDecn.hzd = true ∧ t.block.hzd = false :=
  ⟨_, rfl, rfl, rfl⟩

/-- Running, failed, never run, and beyond the result of a success. -/
theorem witness_NoPartialOutputIsReadable :
    (encoding.Inv ∧ encoding.busy = true) ∧ (failedDecn.Inv ∧ failedDecn.err = true) ∧
      (encoded.Inv ∧ encoded.olen.toNat ≤ 2 ∧ 2 < 2048 ∧ encoded.olen.toNat ≤ 2047) :=
  ⟨⟨encoding_inv, rfl⟩, ⟨failed_inv, rfl⟩, encoded_inv, by decide⟩

theorem witness_NoPartialOutputIsReadable_not_done : encoding.Inv ∧ encoding.done = false := ⟨encoding_inv, rfl⟩

theorem witness_StatusFlagsChangeOnlyAsTabled_launch :
    ∃ t, step (around failedDecn [issueWord 1]) = .next t ∧ failedDecn.busy = false ∧ t.block.busy = true ∧
      failedDecn.done = true ∧ t.block.done = false ∧ failedDecn.err = true ∧ t.block.err = false :=
  ⟨_, rfl, rfl, rfl, rfl, rfl, rfl, rfl⟩

theorem witness_StatusFlagsChangeOnlyAsTabled_completion :
    ∃ t, step (around decoding [.engineCompletion]) = .next t ∧ decoding.busy = true ∧ t.block.busy = false ∧
      decoding.done = false ∧ t.block.done = true ∧ decoding.err = false ∧ t.block.err = true :=
  ⟨_, rfl, rfl, by decide, rfl, by decide, rfl, by decide⟩

theorem witness_CmdHoldsTheLastAcceptedWord :
    ∃ t, step (around encoded [issueWord 0xFFFFFFFF]) = .next t ∧ encoded.busy = false ∧ t.block.cmd ≠ encoded.cmd :=
  ⟨_, rfl, rfl, by decide⟩

theorem witness_CmdHoldsTheLastAcceptedWord_reset :
    (around encoded [.hostReset]).pending = .hostReset :: [] ∧ ∃ t, step (around encoded [.hostReset]) = .next t :=
  ⟨rfl, _, rfl⟩

theorem witness_BuffersAndInputsChangeOnlyByTheirWriter_ie :
    ∃ t, step (around encoded [.hostWrite (wordIndex 0x0000) 0]) = .next t ∧ t.block.ie ≠ encoded.ie :=
  ⟨_, rfl, by decide⟩

theorem witness_BuffersAndInputsChangeOnlyByTheirWriter_ilen :
    ∃ t, step (around encoded [.hostWrite (wordIndex 0x000C) 7]) = .next t ∧ t.block.ilen ≠ encoded.ilen :=
  ⟨_, rfl, by decide⟩

theorem witness_BuffersAndInputsChangeOnlyByTheirWriter_ibuf :
    ∃ t, step (around encoded [.hostWrite (wordIndex 0x1000) 7]) = .next t ∧
      t.block.ibufByte 0 ≠ encoded.ibufByte 0 :=
  ⟨_, rfl, by decide⟩

/-- The output of a second command over the first one's. -/
theorem witness_BuffersAndInputsChangeOnlyByTheirWriter_obuf :
    ∃ t, step (around { encoding with obuf := [(0, 0x30#8)] } [.engineCompletion]) = .next t ∧
      t.block.obufByte 0 ≠ ({ encoding with obuf := [(0, 0x30#8)] } : Block).obufByte 0 :=
  ⟨_, rfl, by decide⟩

theorem witness_InterruptFollowsCompletionAndEnable_rise :
    ∃ t, step (around encoding [.engineCompletion]) = .next t ∧ encoding.irq = false ∧ t.block.irq = true :=
  ⟨_, rfl, rfl, by decide⟩

theorem witness_InterruptFollowsCompletionAndEnable_enable :
    ∃ t, step (around { encoded with ie := false } [.hostWrite (wordIndex 0x0000) 1]) = .next t ∧
      ({ encoded with ie := false } : Block).irq = false ∧ t.block.irq = true :=
  ⟨_, rfl, rfl, by decide⟩

theorem witness_InterruptFollowsCompletionAndEnable_fall :
    ∃ t, step (around encoded [issueWord 4]) = .next t ∧ encoded.irq = true ∧ t.block.irq = false :=
  ⟨_, rfl, rfl, by decide⟩

theorem witness_HostAccessesCannotDisturbARunningCommand :
    (around encoding [.hostRead (wordIndex 0x0004), .hostWrite (wordIndex 0x1000) 0, .engineCompletion]).block.busy = true ∧
      (∀ e ∈ [AgentStep.hostRead (wordIndex 0x0004), AgentStep.hostWrite (wordIndex 0x1000) 0], e.onPort = true) ∧
      (around encoding [.hostRead (wordIndex 0x0004), .hostWrite (wordIndex 0x1000) 0, .engineCompletion]).pending =
        [.hostRead (wordIndex 0x0004), .hostWrite (wordIndex 0x1000) 0] ++ .engineCompletion :: [] := by decide

theorem witness_EveryStepKeepsTheInvariant :
    (around encoding [.engineCompletion]).block.Inv ∧ ∃ t, step (around encoding [.engineCompletion]) = .next t :=
  ⟨encoding_inv, _, rfl⟩

theorem witness_ResetStateIsSound : Config.legalIbufSize 1 ∧ Config.legalIbufSize 1024 := by decide

theorem witness_ResetStepClearsEveryRegister :
    (around encoding [.hostReset, .engineCompletion]).pending = .hostReset :: [.engineCompletion] := rfl

theorem witness_ResetAbandonsTheRunningCommand :
    (around encoding [.hostReset, .engineCompletion, .engineCompletion, .hostRead 0]).pending =
      .hostReset :: (List.replicate 2 .engineCompletion ++ [.hostRead 0]) := rfl

theorem witness_LoadedBytesAreEncoded :
    (around encoded (loadTransactions [1, 2] ++ issueWord 1 :: .engineCompletion :: [])).block.busy = false ∧
      Config.legalIbufSize encoded.ibufSize ∧ [(1 : Byte), 2].length ≤ encoded.ibufSize ∧
      (around encoded (loadTransactions [1, 2] ++ issueWord 1 :: .engineCompletion :: [])).pending =
        loadTransactions [1, 2] ++ issueWord 1 :: .engineCompletion :: [] := by decide

theorem witness_LoadedTextIsDecoded :
    (around failedDecn (loadTransactions [0x52] ++ issueWord 2 :: .engineCompletion :: [])).block.busy = false ∧
      Config.legalIbufSize failedDecn.ibufSize ∧ [0x52#8].length ≤ failedDecn.ibufSize ∧
      (around failedDecn (loadTransactions [0x52] ++ issueWord 2 :: .engineCompletion :: [])).pending =
        loadTransactions [0x52] ++ issueWord 2 :: .engineCompletion :: [] := by decide

end Sys2Proof.Tests
end

section
/-! The lengths of a chunk and of a whole text, on both sides of the encoding (00_scope.md R11, 41_encoder.md R153,
42_decoder.md R190). -/

namespace Sys2Proof.Config

/-- A tail's characters are fewer than a full chunk's. -/
theorem tailChars_lt_five (r : Nat) : tailChars r < 5 := by
  unfold tailChars
  split_ifs <;> omega

/-- `U` undoes `T` on the tails that occur (00_scope.md R11). -/
theorem tailBytes_tailChars {r : Nat} (h : r < 3) : tailBytes (tailChars r) = r := by
  obtain rfl | rfl | rfl : r = 0 ∨ r = 1 ∨ r = 2 := by omega
  all_goals rfl

/-- The full chunks of an encoding are those of its bytes. -/
theorem encLen_div_five (n : Nat) : encLen n / 5 = n / 3 := by
  rw [encLen, Nat.mul_add_div (by decide), Nat.div_eq_of_lt (tailChars_lt_five _), Nat.add_zero]

/-- The characters past the full chunks are those of the tail. -/
theorem encLen_mod_five (n : Nat) : encLen n % 5 = tailChars (n % 3) := by
  rw [encLen, Nat.mul_add_mod, Nat.mod_eq_of_lt (tailChars_lt_five _)]

theorem decLen_encLen (n : Nat) : decLen (encLen n) = n :=
  calc decLen (encLen n)
      _ = 3 * (n / 3) + tailBytes (tailChars (n % 3)) := by rw [decLen, encLen_div_five, encLen_mod_five]
      _ = 3 * (n / 3) + n % 3 := by rw [tailBytes_tailChars (Nat.mod_lt n (by decide))]
      _ = n := Nat.div_add_mod n 3

end Sys2Proof.Config

namespace Sys2Proof.Machine

/-- The graph of the chunk-length decoder (41_encoder.md R153). -/
theorem charsNeeded_eq_some_iff {n k : Nat} :
    charsNeeded n = some k ↔ (n = 1 ∧ k = 2) ∨ (n = 2 ∧ k = 4) ∨ (n = 3 ∧ k = 5) := by
  simp only [charsNeeded, ite_eq_iff, Option.some.injEq, reduceCtorEq, and_false, or_false]
  omega

/-- The graph of the chunk-length encoder (42_decoder.md R190). -/
theorem bytesFor_eq_some_iff {n k : Nat} :
    bytesFor k = some n ↔ (n = 1 ∧ k = 2) ∨ (n = 2 ∧ k = 4) ∨ (n = 3 ∧ k = 5) := by
  simp only [bytesFor, ite_eq_iff, Option.some.injEq, reduceCtorEq, and_false, or_false]
  omega

theorem charsNeeded_eq_some_iff_bytesFor {n k : Nat} : charsNeeded n = some k ↔ bytesFor k = some n :=
  charsNeeded_eq_some_iff.trans bytesFor_eq_some_iff.symm

/-- Settles O20: the two chunk-length mappings have the same three-point graph, and a whole text's length splits into
full chunks and a tail, each of which the inverse mapping gives back. -/
theorem lengthMappingsAreInverse : Obligations.LengthMappingsAreInverse := by
  refine ⟨⟨rfl, rfl, rfl⟩, fun n k h => ?_, fun _ _ => charsNeeded_eq_some_iff_bytesFor, Config.decLen_encLen⟩
  obtain ⟨hn, _⟩ | ⟨hn, _⟩ | ⟨hn, _⟩ := charsNeeded_eq_some_iff.1 h
  · exact .inl hn
  · exact .inr (.inl hn)
  · exact .inr (.inr hn)

end Sys2Proof.Machine
end

section
/-! Every step as a change of the block: the step function is taken apart once, with the agent step that stands first
and the guard it passed, and the rules over every step are read off case by case (40_commands.md R121 to R128). -/

namespace Sys2Proof.Machine

theorem encode_decode (w : Word) : encode (decode w) = w := by
  unfold decode
  split_ifs <;> simp_all [encode]

/-- An accepted command is a launch or one of the two immediate commands (40_commands.md R124). -/
theorem Block.accepted_cases (b : Block) (i : Instr) :
    (i.commandClass = .launching ∧ b.accepted i = b.launch (encode i)) ∨
    (i = .clr ∧ b.accepted i = (b.record (encode i)).clearOutcome.clearHazard) ∨
    (i = .nop ∧ b.accepted i = b.record (encode i)) := by
  cases i with
  | nop => exact .inr (.inr ⟨rfl, rfl⟩)
  | clr => exact .inr (.inl ⟨rfl, rfl⟩)
  | enc | dec | decn | reserved w => exact .inl ⟨rfl, rfl⟩

/-- A word with bits 31:8 clear is a symbol (20_memory.md R63). -/
theorem toNat_lt_of_high_zero {d : Word} (h : d.extractLsb' 8 24 = 0) : d.toNat < 256 := by
  have hd := congrArg BitVec.toNat h
  simp only [BitVec.extractLsb'_toNat, Nat.shiftRight_eq_div_pow, BitVec.ofNat_eq_ofNat, BitVec.toNat_ofNat] at hd
  omega

/-- What one step makes of the block, each change with the agent step that stands first and the guard it passed. -/
inductive StepEffect (s : State) : Block → Prop
  /-- A host read, or the engine's step while no command runs. -/
  | unchanged : StepEffect s s.block
  /-- A dropped host write. -/
  | drop : StepEffect s s.block.drop
  /-- The reset step. -/
  | reset {rest : List AgentStep} (hp : s.pending = .hostReset :: rest) : StepEffect s s.block.resetStep
  /-- An accepted write to `CTRL`. -/
  | setIe {d : Word} {rest : List AgentStep} (hp : s.pending = .hostWrite (wordIndex 0x0000) d :: rest)
      (idle : s.block.busy = false) : StepEffect s (s.block.setIe d[0])
  /-- An accepted write to `ILEN`. -/
  | setIlen {d : Word} {rest : List AgentStep} (hp : s.pending = .hostWrite (wordIndex 0x000C) d :: rest)
      (idle : s.block.busy = false) : StepEffect s (s.block.setIlen d)
  /-- An accepted write to an entry of `IBUF`. -/
  | setIbuf {i : Nat} {d : Word} {rest : List AgentStep}
      (hp : s.pending = .hostWrite (wordIndex (ibufOffset i)) d :: rest) (idle : s.block.busy = false)
      (hi : i < s.block.ibufSize) (hd : d.toNat < 256) : StepEffect s (s.block.setIbuf i (d.extractLsb' 0 8))
  /-- `NOP` accepted. -/
  | nop {w : Word} {rest : List AgentStep} (hp : s.pending = issueWord w :: rest) (idle : s.block.busy = false) :
      StepEffect s (s.block.record w)
  /-- `CLR` accepted. -/
  | clr {rest : List AgentStep} (hp : s.pending = issueWord 4 :: rest) (idle : s.block.busy = false) :
      StepEffect s (s.block.record 4).clearOutcome.clearHazard
  /-- A launching word accepted. -/
  | launch {w : Word} {rest : List AgentStep} (hp : s.pending = issueWord w :: rest) (idle : s.block.busy = false)
      (hw : (decode w).commandClass = .launching) : StepEffect s (s.block.launch w)
  /-- The completion of a running command. -/
  | complete (hn : s.engineNext) (running : s.block.busy = true) :
      StepEffect s (s.block.publish (commandResult s.block))

theorem stepEffect_engineStep {s : State} (hn : s.engineNext) : StepEffect s (engineStep s.block) := by
  cases hb : s.block.busy with
  | false => rw [engineStep_of_idle hb]; exact .unchanged
  | true => rw [engineStep_of_busy hb]; exact .complete hn hb

theorem stepEffect_command {s : State} {w : Word} {rest : List AgentStep} (hp : s.pending = issueWord w :: rest) :
    StepEffect s (s.block.unlessBusy (s.block.accepted (decode w))) := by
  obtain ⟨_, e⟩ | ⟨idle, e⟩ := s.block.unlessBusy_cases (s.block.accepted (decode w))
  · exact e ▸ .drop
  · rw [e]
    obtain ⟨hw, ha⟩ | ⟨hw, ha⟩ | ⟨_, ha⟩ := s.block.accepted_cases (decode w)
    all_goals rw [ha, encode_decode]
    · exact .launch hp idle hw
    · obtain rfl : w = 4 := by rw [← encode_decode w, hw]; rfl
      exact .clr hp idle
    · exact .nop hp idle

theorem stepEffect_write {s t : State} {a : PortIndex} {d : Word} {rest : List AgentStep}
    (hp : s.pending = .hostWrite a d :: rest)
    (hw : writeAction (s.withPending rest) d (locate s.block.ibufSize a) = .other t) : StepEffect s t.block := by
  obtain rfl | ⟨idle, hl, rfl⟩ | ⟨idle, hl, rfl⟩ | ⟨idle, i, hl, hd, rfl⟩ := writeAction_cases hw
  · exact .drop
  · obtain rfl := locate_eq_ctrl hl
    exact .setIe hp idle
  · obtain rfl := locate_eq_ilen hl
    exact .setIlen hp idle
  · obtain ⟨rfl, hi, _⟩ := locate_eq_ibuf hl
    exact .setIbuf hp idle hi (toNat_lt_of_high_zero hd)

/-- Every step is one of the effects. -/
theorem step_effect {s t : State} (h : step s = .next t) : StepEffect s t.block := by
  obtain ⟨hp, rfl⟩ | ⟨e, rest, hp, he⟩ := step_cases h
  · exact stepEffect_engineStep (.inl hp)
  · obtain ⟨a, rfl, rfl⟩ | ⟨rfl, rfl⟩ | ⟨rfl, rfl⟩ | ⟨a, d, rfl, hl, rfl⟩ | ⟨a, d, rfl, hw⟩ := he
    · exact .unchanged
    · exact .reset hp
    · exact stepEffect_engineStep (.inr ⟨rest, hp⟩)
    · obtain rfl := locate_eq_cmd hl
      exact stepEffect_command hp
    · exact stepEffect_write hp hw

end Sys2Proof.Machine
end

section
/-! The results a launched command can have: an output fits `OBUF`, and an error names its cause and records a character
and a position only where the table of errors has one (40_commands.md R129, R130, 60_exceptions.md R222 to R225). -/

namespace Sys2Proof.Machine

theorem encLen_three_add (n : Nat) : Config.encLen (3 + n) = 5 + Config.encLen n := by
  rw [Config.encLen, Config.encLen, Nat.add_mod_left, Nat.add_div_left n (by decide)]
  ring

/-- Each chunk of bytes gives its number of characters (41_encoder.md R159). -/
theorem length_encodeBytes (b : List Byte) : (encodeBytes b).length = Config.encLen b.length := by
  induction b using chunk_induction (n := 3) (by decide) with
  | nil => rfl
  | short b h0 h3 =>
    obtain ⟨k, hk, _, _, hb⟩ := charsNeeded_cases (List.length_pos_iff.2 h0) (Nat.le_of_lt h3)
    rw [encodeBytes_last h0 (Nat.le_of_lt h3), encodeChunk_of_charsNeeded hk, List.length_map, chainDigits_length]
    obtain ⟨hn, rfl⟩ | ⟨hn, rfl⟩ | ⟨hn, rfl⟩ := hb
    all_goals rw [hn]; rfl
  | full c b hc ih =>
    obtain ⟨k, hk, _, _, hb⟩ := charsNeeded_cases (n := c.length) (by omega) (by omega)
    obtain rfl : k = 5 := by omega
    rw [encodeBytes_append hc, encodeChunk_of_charsNeeded hk, List.length_append, List.length_append, ih,
      List.length_map, chainDigits_length, hc, encLen_three_add]

theorem encLen_mono {m n : Nat} (h : m ≤ n) : Config.encLen m ≤ Config.encLen n := by
  simp only [Config.encLen, Config.tailChars]
  split_ifs <;> omega

theorem le_encLen (n : Nat) : n ≤ Config.encLen n := by
  simp only [Config.encLen, Config.tailChars]
  split_ifs <;> omega

/-- Cutting off `q` pieces of `n` symbols loses nothing. -/
theorem flatten_pieces (t : List Byte) (n q : Nat) :
    ((List.range q).map fun i => (t.drop (n * i)).take n).flatten = t.take (n * q) := by
  induction q with
  | zero => simp
  | succ q ih =>
    rw [List.range_succ, List.map_append, List.flatten_append, ih, Nat.mul_succ, List.take_add]
    simp

theorem flatten_textChunks (t : List Byte) (last : Nat) : (textChunks t last).flatten = t := by
  simp only [textChunks, List.flatten_append, flatten_pieces, List.flatten_singleton, List.take_append_drop]

/-- A chunk gives no more bytes than it has characters (42_decoder.md R190). -/
theorem length_decodeChunk_le {e out : List Byte} (h : decodeChunk e = some out) : out.length ≤ e.length := by
  obtain ⟨n, hn, rfl⟩ := Option.map_eq_some_iff.1 h
  have := bytesFor_eq_some_iff.1 hn
  rw [emitBytes_length]
  omega

theorem length_decodeChunks_le {es : List (List Byte)} {out : List Byte} (h : decodeChunks es = some out) :
    out.length ≤ es.flatten.length := by
  induction es generalizing out with
  | nil => simp [decodeChunks] at h; simp [← h]
  | cons e es ih =>
    simp only [decodeChunks] at h
    split at h
    · rename_i o r ho hr
      have hlo := length_decodeChunk_le ho
      have hlr := ih hr
      obtain rfl : o ++ r = out := by simpa using h
      rw [List.flatten_cons, List.length_append, List.length_append]
      omega
    · cases h

/-- A result that a completion may publish into an `OBUF` of `size` entries. -/
def CommandResult.Sound (size : Nat) : CommandResult → Prop
  | .ok out => out.length ≤ size
  | .err code ch pos =>
    code ≠ .none ∧ (code ≠ .invalidCharacter → ch = 0) ∧
      (code ≠ .invalidCharacter → code ≠ .invalidLength → pos = 0)

theorem CommandResult.Sound.mono {m n : Nat} {r : CommandResult} (h : r.Sound m) (hmn : m ≤ n) : r.Sound n := by
  cases r with
  | ok out => exact Nat.le_trans h hmn
  | err code ch pos => exact h

theorem sound_invalidCharacter (size : Nat) (c : Byte) (i : Nat) :
    (CommandResult.err .invalidCharacter c i).Sound size := by simp [CommandResult.Sound]

theorem sound_invalidLength (size n : Nat) : (CommandResult.err .invalidLength 0 n).Sound size := by
  simp [CommandResult.Sound]

theorem sound_inputOverrun (size : Nat) : (CommandResult.err .inputOverrun 0 0).Sound size := by
  simp [CommandResult.Sound]

theorem sound_reservedResult (size : Nat) : reservedResult.Sound size := by
  simp [reservedResult, CommandResult.Sound]

/-- The decoder's output is no longer than its input. -/
theorem sound_decodeText (strip : Bool) (s : List Byte) : (decodeText strip s).Sound s.length := by
  simp only [decodeText]
  split
  · exact sound_invalidCharacter _ _ _
  · split
    · exact Nat.zero_le _
    · split
      · exact sound_invalidLength _ _
      · split
        · rename_i last _ out hout
          have hlen := length_decodeChunks_le hout
          rw [flatten_textChunks, List.length_drop] at hlen
          exact Nat.le_trans hlen (Nat.sub_le _ _)
        · exact sound_invalidLength _ _

/-- A command on its operand sees at most `IBUF_SIZE` symbols (60_exceptions.md R225). -/
theorem Block.sound_onInput {b : Block} {f : List Byte → CommandResult} {size : Nat}
    (hf : ∀ s : List Byte, s.length ≤ b.ibufSize → (f s).Sound size) : (b.onInput f).Sound size := by
  rcases Nat.lt_or_ge b.ibufSize b.ilen.toNat with h | h
  · exact b.onInput_of_lt h f ▸ sound_inputOverrun size
  · exact b.onInput_of_le h f ▸ hf b.input (b.input_length ▸ h)

theorem sound_commandResult (b : Block) : (commandResult b).Sound b.obufSize := by
  have dec (strip : Bool) : (b.onInput (decodeText strip)).Sound b.obufSize := by
    refine b.sound_onInput fun s hs => (sound_decodeText strip s).mono ?_
    exact Nat.le_trans hs (le_encLen b.ibufSize)
  unfold commandResult
  cases decode b.cmd with
  | enc =>
    refine b.sound_onInput fun s hs => ?_
    exact Nat.le_trans (Nat.le_of_eq (length_encodeBytes s)) (encLen_mono hs)
  | dec => exact dec true
  | decn => exact dec false
  | nop | clr | reserved w => exact sound_reservedResult _

end Sys2Proof.Machine
end

section
/-! The invariant: what it does not look at, that each operation on the block keeps it, and the two statements on it
(10_state.md R26, R37). -/

namespace Sys2Proof.Machine

/-- The invariant says nothing of `IE`, `HZD`, `ILEN` and the reset count. -/
theorem Block.Inv.set_unconstrained {b : Block} (h : b.Inv) (ie hzd : Bool) (ilen : Word) (resets : Nat) :
    { b with ie := ie, hzd := hzd, ilen := ilen, resets := resets }.Inv where
  flags := { h.flags with }
  records := { h.records with }
  buffers := { h.buffers with }
  launch := h.launch

theorem Block.Inv.drop {b : Block} (h : b.Inv) : b.drop.Inv := h.set_unconstrained b.ie true b.ilen b.resets

theorem Block.Inv.setIe {b : Block} (h : b.Inv) (v : Bool) : (b.setIe v).Inv :=
  h.set_unconstrained v b.hzd b.ilen b.resets

theorem Block.Inv.setIlen {b : Block} (h : b.Inv) (d : Word) : (b.setIlen d).Inv :=
  h.set_unconstrained b.ie b.hzd d b.resets

theorem Block.Inv.clearHazard {b : Block} (h : b.Inv) : b.clearHazard.Inv :=
  h.set_unconstrained b.ie false b.ilen b.resets

theorem Block.Inv.setIbuf {b : Block} (h : b.Inv) {i : Nat} (hi : i < b.ibufSize) (v : Byte) : (b.setIbuf i v).Inv where
  flags := { h.flags with }
  records := { h.records with }
  buffers := { h.buffers with
    ibuf_wf := Memory.wf_store h.buffers.ibuf_wf i v
    ibuf_within := Memory.within_store h.buffers.ibuf_within hi v }
  launch := h.launch

/-- `CMD` is constrained only while a command runs. -/
theorem Block.Inv.record {b : Block} (h : b.Inv) (idle : b.busy = false) (w : Word) : (b.record w).Inv where
  flags := { h.flags with }
  records := { h.records with }
  buffers := { h.buffers with }
  launch := fun running => by simp [idle] at running

theorem Block.Inv.clearOutcome {b : Block} (h : b.Inv) : b.clearOutcome.Inv where
  flags := by constructor <;> simp
  records := by constructor <;> simp
  buffers := { h.buffers with visible_written := fun j hj => absurd hj (Nat.not_lt_zero j) }
  launch := h.launch

theorem Block.Inv.launch_of_launching {b : Block} (h : b.Inv) {w : Word}
    (hw : (decode w).commandClass = .launching) : (b.launch w).Inv where
  flags := by constructor <;> simp
  records := by constructor <;> simp
  buffers := { h.buffers with visible_written := fun j hj => absurd hj (Nat.not_lt_zero j) }
  launch := fun _ => hw

/-- `OLEN` after a success is no more than the number of output symbols, so every visible entry is a written one. -/
theorem Block.Inv.finish {b : Block} (h : b.Inv) (running : b.busy = true) {out : List Byte}
    (fits : out.length ≤ b.obufSize) : (b.finish out).Inv := by
  obtain ⟨_, noErr⟩ := h.flags.busy_flags running
  obtain ⟨_, noCode, noChar, noPos⟩ := h.flags.busy_outcome running
  have olen_le : (b.finish out).olen.toNat ≤ out.length := by simpa using Nat.mod_le _ _
  exact {
    flags := {
      busy_flags := by simp
      err_done := by simp
      err_ecode := by simp [noErr, noCode]
      err_olen := by simp [noErr]
      busy_outcome := by simp
      olen_le := Nat.le_trans olen_le fits }
    records := by constructor <;> simp [noChar, noPos]
    buffers := { h.buffers with
      obuf_wf := Memory.wf_storeFrom out h.buffers.obuf_wf 0
      obuf_within := Memory.within_storeFrom out h.buffers.obuf_within 0 (by omega)
      visible_written := fun j hj => by simp [Memory.cell?_storeFrom, Nat.lt_of_lt_of_le hj olen_le] }
    launch := fun hb => by simp at hb }

theorem Block.Inv.enterError {b : Block} (h : b.Inv) (running : b.busy = true) {code : ErrorCode}
    {ch : Byte} {pos : Nat} (hr : (CommandResult.err code ch pos).Sound b.obufSize) :
    (b.enterError code ch pos).Inv := by
  obtain ⟨noOlen, _⟩ := h.flags.busy_outcome running
  obtain ⟨hcode, hch, hpos⟩ := hr
  exact {
    flags := by constructor <;> simp [noOlen, hcode]
    records := ⟨hch, fun _ => rfl, fun h1 h2 => by simp [hpos h1 h2]⟩
    buffers := { h.buffers with }
    launch := fun hb => by simp at hb }

theorem Block.Inv.publish {b : Block} (h : b.Inv) (running : b.busy = true) {r : CommandResult}
    (hr : r.Sound b.obufSize) : (b.publish r).Inv := by
  cases r with
  | ok out => exact h.finish running hr
  | err code ch pos => exact h.enterError running hr

theorem Block.inv_afterReset {n : Nat} (hn : Config.legalIbufSize n) : (Block.afterReset n).Inv where
  flags := by constructor <;> simp [Block.afterReset]
  records := by constructor <;> simp [Block.afterReset]
  buffers := {
    size_legal := hn
    ibuf_wf := Memory.wf_nil
    ibuf_within := fun _ => nofun
    obuf_wf := Memory.wf_nil
    obuf_within := fun _ => nofun
    visible_written := fun j hj => absurd hj (Nat.not_lt_zero j) }
  launch := by simp [Block.LaunchSound, Block.afterReset]

/-- The reset step leaves the block after reset, but for the reset count. -/
theorem Block.Inv.resetStep {b : Block} (h : b.Inv) : b.resetStep.Inv :=
  (Block.inv_afterReset h.buffers.size_legal).set_unconstrained false false 0 (b.resets + 1)

/-- Each effect of a step is an operation that keeps the invariant. -/
theorem StepEffect.inv {s : State} {c : Block} (h : StepEffect s c) (hinv : s.block.Inv) : c.Inv := by
  cases h with
  | unchanged => exact hinv
  | drop => exact hinv.drop
  | reset hp => exact hinv.resetStep
  | setIe hp idle => exact hinv.setIe _
  | setIlen hp idle => exact hinv.setIlen _
  | setIbuf hp idle hi hd => exact hinv.setIbuf hi _
  | nop hp idle => exact hinv.record idle _
  | clr hp idle => exact (hinv.record idle 4).clearOutcome.clearHazard
  | launch hp idle hw => exact hinv.launch_of_launching hw
  | complete hn running => exact hinv.publish running (sound_commandResult s.block)

/-- Settles O45: every step is one of the effects, and each of them keeps the invariant. -/
theorem everyStepKeepsTheInvariant : Obligations.EveryStepKeepsTheInvariant :=
  fun _ _ hinv h => (step_effect h).inv hinv

/-- Settles O46: the registers are 0 by definition, and the reference size gives the reference `CAP`. -/
theorem resetStateIsSound : Obligations.ResetStateIsSound :=
  ⟨fun _ hn => ⟨Block.inv_afterReset hn, rfl, rfl, rfl, rfl, rfl, rfl, rfl, rfl, rfl, rfl⟩, rfl, by decide⟩

end Sys2Proof.Machine
end

section
/-! What a completion can do to the flags and the buffers, and the rules over every step: `STATUS`, `CMD`, the inputs
and the buffers (10_state.md R25, R27, R28, R32). -/

namespace Sys2Proof.Machine

@[simp] theorem Block.publish_busy (b : Block) (r : CommandResult) : (b.publish r).busy = false := by cases r <;> rfl
@[simp] theorem Block.publish_done (b : Block) (r : CommandResult) : (b.publish r).done = true := by cases r <;> rfl
@[simp] theorem Block.publish_ie (b : Block) (r : CommandResult) : (b.publish r).ie = b.ie := by cases r <;> rfl
@[simp] theorem Block.publish_cmd (b : Block) (r : CommandResult) : (b.publish r).cmd = b.cmd := by cases r <;> rfl
@[simp] theorem Block.publish_ilen (b : Block) (r : CommandResult) : (b.publish r).ilen = b.ilen := by cases r <;> rfl
@[simp] theorem Block.publish_ibuf (b : Block) (r : CommandResult) : (b.publish r).ibuf = b.ibuf := by cases r <;> rfl
@[simp] theorem Block.publish_ibufSize (b : Block) (r : CommandResult) : (b.publish r).ibufSize = b.ibufSize := by
  cases r <;> rfl
@[simp] theorem Block.publish_resets (b : Block) (r : CommandResult) : (b.publish r).resets = b.resets := by
  cases r <;> rfl

/-- `ERR` after a completion is new only for an error result; a success leaves it (40_commands.md R128). -/
theorem Block.publish_err_cases (b : Block) (r : CommandResult) :
    (b.publish r).err = b.err ∨ ((b.publish r).err = true ∧ ∃ code ch pos, r = .err code ch pos) := by
  cases r with
  | ok out => exact .inl rfl
  | err code ch pos => exact .inr ⟨rfl, code, ch, pos, rfl⟩

section
variable {s : State} {c : Block}

theorem StepEffect.busy_rise (h : StepEffect s c) (idle : s.block.busy = false) (hc : c.busy = true) :
    ∃ w rest, s.pending = issueWord w :: rest ∧ (decode w).commandClass = .launching := by
  cases h with
  | launch hp _ hw => exact ⟨_, _, hp, hw⟩
  | _ => simp_all

theorem StepEffect.busy_fall (h : StepEffect s c) (running : s.block.busy = true) (hc : c.busy = false) :
    s.engineNext ∨ ∃ rest, s.pending = .hostReset :: rest := by
  cases h with
  | reset hp => exact .inr ⟨_, hp⟩
  | complete hn _ => exact .inl hn
  | _ => simp_all

theorem StepEffect.done_rise (h : StepEffect s c) (hs : s.block.done = false) (hc : c.done = true) :
    s.engineNext ∧ s.block.busy = true := by
  cases h with
  | complete hn running => exact ⟨hn, running⟩
  | _ => simp_all

theorem StepEffect.err_rise (h : StepEffect s c) (hs : s.block.err = false) (hc : c.err = true) :
    s.engineNext ∧ s.block.busy = true ∧ ∃ code ch pos, commandResult s.block = .err code ch pos := by
  cases h with
  | complete hn running =>
    obtain he | ⟨_, hr⟩ := s.block.publish_err_cases (commandResult s.block)
    · simp_all
    · exact ⟨hn, running, hr⟩
  | _ => simp_all

theorem StepEffect.outcome_fall (h : StepEffect s c)
    (hf : (s.block.done = true ∧ c.done = false) ∨ (s.block.err = true ∧ c.err = false)) :
    (∃ rest, s.pending = .hostReset :: rest) ∨
    (s.block.busy = false ∧ ∃ w rest, s.pending = issueWord w :: rest ∧
      (w = 4 ∨ (decode w).commandClass = .launching)) := by
  cases h with
  | reset hp => exact .inl ⟨_, hp⟩
  | clr hp idle => exact .inr ⟨idle, _, _, hp, .inl rfl⟩
  | launch hp idle hw => exact .inr ⟨idle, _, _, hp, .inr hw⟩
  | complete => obtain he | ⟨he, _⟩ := s.block.publish_err_cases (commandResult s.block) <;> simp_all
  | _ => simp_all

theorem StepEffect.cmd_change (h : StepEffect s c) (hc : c.cmd ≠ s.block.cmd) :
    (∃ w rest, s.pending = issueWord w :: rest ∧ s.block.busy = false) ∨
      ∃ rest, s.pending = .hostReset :: rest := by
  cases h with
  | reset hp => exact .inr ⟨_, hp⟩
  | nop hp idle | clr hp idle | launch hp idle _ => exact .inl ⟨_, _, hp, idle⟩
  | _ => simp at hc

theorem StepEffect.ibufSize_unchanged (h : StepEffect s c) : c.ibufSize = s.block.ibufSize := by
  cases h <;> simp

theorem StepEffect.ie_change (h : StepEffect s c) (hr : ¬∃ rest, s.pending = .hostReset :: rest)
    (hc : c.ie ≠ s.block.ie) :
    s.block.busy = false ∧ ∃ d rest, s.pending = .hostWrite (wordIndex 0x0000) d :: rest := by
  cases h with
  | reset hp => exact absurd ⟨_, hp⟩ hr
  | setIe hp idle => exact ⟨idle, _, _, hp⟩
  | _ => simp at hc

theorem StepEffect.ilen_change (h : StepEffect s c) (hr : ¬∃ rest, s.pending = .hostReset :: rest)
    (hc : c.ilen ≠ s.block.ilen) :
    s.block.busy = false ∧ ∃ d rest, s.pending = .hostWrite (wordIndex 0x000C) d :: rest := by
  cases h with
  | reset hp => exact absurd ⟨_, hp⟩ hr
  | setIlen hp idle => exact ⟨idle, _, _, hp⟩
  | _ => simp at hc

theorem StepEffect.ibufByte_change (h : StepEffect s c) (hr : ¬∃ rest, s.pending = .hostReset :: rest)
    {i : Nat} (hc : c.ibufByte i ≠ s.block.ibufByte i) :
    s.block.busy = false ∧ i < s.block.ibufSize ∧
      ∃ d rest, s.pending = .hostWrite (wordIndex (ibufOffset i)) d :: rest ∧ d.toNat < 256 := by
  cases h with
  | reset hp => exact absurd ⟨_, hp⟩ hr
  | @setIbuf k d rest hp idle hk hd =>
    obtain rfl : i = k := by
      by_contra hne
      exact hc (by rw [Block.ibufByte_setIbuf, if_neg hne])
    exact ⟨idle, hk, d, rest, hp, hd⟩
  | _ => simp [Block.ibufByte] at hc

theorem StepEffect.obufByte_change (h : StepEffect s c) (hr : ¬∃ rest, s.pending = .hostReset :: rest)
    {j : Nat} (hc : c.obufByte j ≠ s.block.obufByte j) :
    s.engineNext ∧ s.block.busy = true := by
  cases h with
  | reset hp => exact absurd ⟨_, hp⟩ hr
  | complete hn running => exact ⟨hn, running⟩
  | _ => simp [Block.obufByte] at hc

end

/-- Settles O40: one lemma for each way a flag of `STATUS` can move. -/
theorem statusFlagsChangeOnlyAsTabled : Obligations.StatusFlagsChangeOnlyAsTabled := by
  intro s t h
  have effect := step_effect h
  exact ⟨effect.busy_rise, effect.busy_fall, effect.done_rise, effect.err_rise, effect.outcome_fall⟩

/-- A word issued while no command runs is executed (40_commands.md R124). -/
theorem step_issueWord {s : State} {w : Word} {rest : List AgentStep} (hp : s.pending = issueWord w :: rest)
    (idle : s.block.busy = false) :
    step s = .next ((s.withPending rest).withBlock (s.block.accepted (decode w))) := by
  simp [step_of_pending hp, issueWord, agentAction, locate_cmd, writeAction, exec_eq, Block.unlessBusy_of_idle idle]

theorem step_hostReset {s : State} {rest : List AgentStep} (hp : s.pending = .hostReset :: rest) :
    step s = .next ((s.withPending rest).withBlock s.block.resetStep) :=
  step_of_pending hp

@[simp] theorem Block.accepted_cmd (b : Block) (i : Instr) : (b.accepted i).cmd = encode i := by cases i <;> rfl

/-- Settles O41: every accepted command records its word, and no other effect but reset writes `CMD`. -/
theorem cmdHoldsTheLastAcceptedWord : Obligations.CmdHoldsTheLastAcceptedWord := by
  intro s t h
  refine ⟨fun w rest hp idle => ?_, fun rest hp => ?_, (step_effect h).cmd_change⟩
  · obtain rfl : _ = t := by simpa [step_issueWord hp idle] using h
    simp [encode_decode]
  · obtain rfl : _ = t := by simpa [step_hostReset hp] using h
    rfl

/-- Settles O42: each input and each buffer is changed by the effects its row of the table names and by no other. -/
theorem buffersAndInputsChangeOnlyByTheirWriter : Obligations.BuffersAndInputsChangeOnlyByTheirWriter := by
  intro s t h
  have effect := step_effect h
  refine ⟨effect.ibufSize_unchanged, or_iff_not_imp_left.2 fun hr => ?_⟩
  exact ⟨effect.ie_change hr, effect.ilen_change hr, fun _ => effect.ibufByte_change hr,
    fun _ => effect.obufByte_change hr⟩

end Sys2Proof.Machine
end

section
/-! The host port, one equation for each kind of agent step, and the statements on it: a read returns its word, a write
leaves the block of `Block.written`, a dropped write sets `HZD` alone (20_memory.md, 40_commands.md R122, R123). -/

namespace Sys2Proof.Machine

/-- Settles O39: a command and every other action answer a next state. -/
theorem everyStepHasANextState : Obligations.EveryStepHasANextState := by
  intro s
  unfold step
  cases nextAction s with
  | command i t => exact ⟨_, exec_eq i t⟩
  | other t => exact ⟨t, rfl⟩

/-- The block after a host write of `d` at a location, `CMD` included (40_commands.md R123). -/
def Block.written (b : Block) (d : Word) : Location → Block
  | .ctrl => b.unlessBusy (b.setIe d[0])
  | .ilen => b.unlessBusy (b.setIlen d)
  | .ibuf i => b.unlessBusy (b.writeSymbol i d)
  | .cmd => b.unlessBusy (b.accepted (decode d))
  | _ => b.drop

theorem step_hostRead {s : State} {a : PortIndex} {rest : List AgentStep} (hp : s.pending = .hostRead a :: rest) :
    step s = .next ((s.withPending rest).reply (memRead s.block a)) :=
  step_of_pending hp

theorem step_engineCompletion {s : State} {rest : List AgentStep} (hp : s.pending = .engineCompletion :: rest) :
    step s = .next ((s.withPending rest).withBlock (engineStep s.block)) :=
  step_of_pending hp

theorem step_hostWrite {s : State} {a : PortIndex} {d : Word} {rest : List AgentStep}
    (hp : s.pending = .hostWrite a d :: rest) :
    step s = .next ((s.withPending rest).withBlock (s.block.written d (locate s.block.ibufSize a))) := by
  rw [step_of_pending hp]
  simp only [agentAction, State.withPending_block]
  cases locate s.block.ibufSize a with
  | cmd => exact exec_eq _ _
  | _ => rfl

/-- A host read is answered with the word at its index (40_commands.md R122). -/
theorem State.answers_memRead (s : State) (a : PortIndex) : s.answers a (memRead s.block a) :=
  fun rest => step_hostRead (s := s.withPending (.hostRead a :: rest)) rfl

/-- The one block a host write leads to (40_commands.md R123). -/
theorem State.becomes_iff {s : State} {a : PortIndex} {d : Word} {b : Block} :
    s.becomes a d b ↔ b = s.block.written d (locate s.block.ibufSize a) := by
  have write (rest : List AgentStep) := step_hostWrite (s := s.withPending (.hostWrite a d :: rest)) rfl
  constructor
  · intro h
    have same := (h []).symm.trans (write [])
    exact congrArg State.block (Host.Outcome.next.inj same)
  · rintro rfl rest
    exact write rest

/-! ### A write done twice (20_memory.md R69) -/

/-- A guarded operation that leaves `BUSY` alone is idempotent if it is so without the guard. -/
theorem Block.unlessBusy_idem {f : Block → Block} {b : Block} (busy_kept : (f b).busy = b.busy)
    (idem : f (f b) = f b) :
    (b.unlessBusy (f b)).unlessBusy (f (b.unlessBusy (f b))) = b.unlessBusy (f b) := by
  obtain ⟨running, e⟩ | ⟨idle, e⟩ := b.unlessBusy_cases (f b)
  · rw [e]
    exact Block.unlessBusy_of_busy running _
  · rw [e, idem]
    exact Block.unlessBusy_of_idle (busy_kept.trans idle) _

@[simp] theorem Block.writeSymbol_busy (b : Block) (i : Nat) (d : Word) : (b.writeSymbol i d).busy = b.busy := by
  obtain ⟨_, e⟩ | ⟨_, e⟩ := b.writeSymbol_cases i d <;> rw [e] <;> rfl

theorem Block.setIbuf_setIbuf (b : Block) (i : Nat) (v : Byte) : (b.setIbuf i v).setIbuf i v = b.setIbuf i v := by
  simp only [Block.setIbuf, Memory.store_store]

theorem Block.writeSymbol_idem (b : Block) (i : Nat) (d : Word) :
    (b.writeSymbol i d).writeSymbol i d = b.writeSymbol i d := by
  by_cases hd : d.extractLsb' 8 24 = 0
  · have stored (c : Block) : c.writeSymbol i d = c.setIbuf i (d.extractLsb' 0 8) := if_neg (not_not.2 hd)
    rw [stored, stored, Block.setIbuf_setIbuf]
  · have dropped (c : Block) : c.writeSymbol i d = c.drop := if_pos hd
    rw [dropped, dropped]
    rfl

/-- Everywhere but at `CMD`, where a launching word written again meets the command it launched and is dropped. -/
theorem Block.written_idem (b : Block) (d : Word) {l : Location} (hl : l ≠ .cmd) :
    (b.written d l).written d l = b.written d l := by
  cases l with
  | cmd => exact absurd rfl hl
  | ctrl => exact Block.unlessBusy_idem (f := fun c => c.setIe d[0]) rfl rfl
  | ilen => exact Block.unlessBusy_idem (f := fun c => c.setIlen d) rfl rfl
  | ibuf i =>
    exact Block.unlessBusy_idem (f := fun c => c.writeSymbol i d) (b.writeSymbol_busy i d) (b.writeSymbol_idem i d)
  | _ => rfl

/-- The address map is the same after a write: no step changes `IBUF_SIZE`. -/
theorem State.becomes_ibufSize {s : State} {a : PortIndex} {d : Word} {b : Block} (h : s.becomes a d b) :
    b.ibufSize = s.block.ibufSize :=
  (step_effect (h [])).ibufSize_unchanged

/-- Settles O36: the second write meets the same location, where writing is idempotent. -/
theorem repeatedWritesAreIdempotent : Obligations.RepeatedWritesAreIdempotent := by
  intro s a d b ha h
  have hl : locate s.block.ibufSize a ≠ .cmd := fun hc => ha (locate_eq_cmd hc)
  have size : b.ibufSize = s.block.ibufSize := State.becomes_ibufSize h
  rw [State.becomes_iff] at h ⊢
  show b = b.written d (locate b.ibufSize a)
  rw [size, h, Block.written_idem _ _ hl]

/-! ### The `OBUF` window (20_memory.md R65) -/

theorem Block.obufWindow_of_olen_le {b : Block} {j : Nat} (h : b.olen.toNat ≤ j) : b.obufWindow j = 0 :=
  if_neg (Nat.not_lt.2 h)

/-- Only after a success is there any output (10_state.md R26, R29). -/
theorem Block.Inv.olen_eq_zero {b : Block} (h : b.Inv) (hb : b.busy = true ∨ b.err = true ∨ b.done = false) :
    b.olen = 0 := by
  obtain running | failed | notDone := hb
  · exact (h.flags.busy_outcome running).1
  · exact h.flags.err_olen failed
  · by_contra hne
    simp [h.records.olen_done hne] at notDone

/-- A word of the window's index range at which no output is visible reads 0, mapped or not. -/
theorem memRead_obuf_of_olen_le {b : Block} {j : Nat} (hj : j < 2048) (h : b.olen.toNat ≤ j) :
    memRead b (wordIndex (obufOffset j)) = 0 := by
  rw [memRead, locate_obuf hj]
  split
  · exact Block.obufWindow_of_olen_le h
  · rfl

/-- Settles O38: in each of the cases `OLEN` is at most `j`. -/
theorem noPartialOutputIsReadable : Obligations.NoPartialOutputIsReadable := by
  intro s j hinv hj hcase
  have hle : s.block.olen.toNat ≤ j := by
    obtain running | failed | notDone | hle := hcase
    · simp [hinv.olen_eq_zero (.inl running)]
    · simp [hinv.olen_eq_zero (.inr (.inl failed))]
    · simp [hinv.olen_eq_zero (.inr (.inr notDone))]
    · exact hle
  exact memRead_obuf_of_olen_le hj hle ▸ s.answers_memRead (wordIndex (obufOffset j))

/-! ### Accesses while a command runs (20_memory.md R73, R74) -/

theorem Block.written_of_busy {b : Block} (running : b.busy = true) (d : Word) (l : Location) :
    b.written d l = b.drop := by
  cases l with
  | ctrl | ilen | ibuf i | cmd => exact Block.unlessBusy_of_busy running _
  | _ => rfl

/-- One port access while a command runs changes the block in `HZD` at most. -/
theorem step_onPort_of_busy {s : State} {e : AgentStep} {rest : List AgentStep} (running : s.block.busy = true)
    (port : e.onPort = true) (hp : s.pending = e :: rest) :
    ∃ t h, step s = .next t ∧ t.pending = rest ∧ t.block = { s.block with hzd := h } := by
  cases e with
  | hostRead a => exact ⟨_, s.block.hzd, step_hostRead hp, rfl, rfl⟩
  | hostWrite a d => exact ⟨_, true, step_hostWrite hp, rfl, Block.written_of_busy running d _⟩
  | hostReset | engineCompletion => cases port

theorem core_run_succ {s t : State} (h : step s = .next t) (n : Nat) : core.run (n + 1) s = core.run n t := by
  have hc : core.step s = .next t := h
  simp only [Host.Core.run, hc]

/-- However many port accesses come while a command runs, the block changes in `HZD` at most. -/
theorem run_onPort_of_busy {p rest : List AgentStep} {s : State} (running : s.block.busy = true)
    (port : ∀ e ∈ p, e.onPort = true) (hp : s.pending = p ++ rest) :
    ∃ t h, core.run p.length s = .next t ∧ t.pending = rest ∧ t.block = { s.block with hzd := h } := by
  induction p generalizing s with
  | nil => exact ⟨s, s.block.hzd, rfl, hp, rfl⟩
  | cons e p ih =>
    obtain ⟨head, tail⟩ := List.forall_mem_cons.1 port
    obtain ⟨t, h, hs, ht, hb⟩ := step_onPort_of_busy running head hp
    have running' : t.block.busy = true := by rw [hb]; exact running
    obtain ⟨u, k, hu, hrest, hk⟩ := ih running' tail ht
    refine ⟨u, k, ?_, hrest, by rw [hk, hb]⟩
    rw [List.length_cons, core_run_succ hs, hu]

theorem Block.publish_set_hzd (b : Block) (h : Bool) (r : CommandResult) :
    ({ b with hzd := h } : Block).publish r = { b.publish r with hzd := h } := by
  cases r <;> rfl

/-- No result depends on the hazard flag (60_exceptions.md R230). -/
theorem commandResult_set_hzd (b : Block) (h : Bool) : commandResult { b with hzd := h } = commandResult b :=
  commandResult_congr rfl rfl rfl fun _ _ => rfl

/-- The completion reads no hazard flag and leaves it as it is. -/
theorem engineStep_set_hzd (b : Block) (h : Bool) :
    engineStep { b with hzd := h } = { engineStep b with hzd := h } := by
  obtain running | idle := b.busy.eq_false_or_eq_true
  · rw [engineStep_of_busy running, engineStep_of_busy (b := { b with hzd := h }) running, commandResult_set_hzd,
      Block.publish_set_hzd]
  · rw [engineStep_of_idle idle, engineStep_of_idle (b := { b with hzd := h }) idle]

/-- Settles O44: the accesses change `HZD` at most, and the completion commutes with a change of `HZD`. -/
theorem hostAccessesCannotDisturbARunningCommand : Obligations.HostAccessesCannotDisturbARunningCommand := by
  intro s p rest running port hp
  obtain ⟨t, h, hrun, ht, hb⟩ := run_onPort_of_busy running port hp
  refine ⟨t, _, _, h, hrun, hb, step_engineCompletion ht, rfl, step_engineCompletion rfl, ?_⟩
  show engineStep t.block = { engineStep s.block with hzd := h }
  rw [hb, engineStep_set_hzd]

end Sys2Proof.Machine
end

section
/-! The command word, read both ways: decoding and encoding are inverse to each other, and a word is reserved by its
value or, the same thing, by its two fields (30_encoding.md R98 to R100). -/

namespace Sys2Proof

/-- A word is reserved exactly when it is above the five assigned ones (30_encoding.md R99, R100). -/
theorem isReservedWord_iff {w : Word} : isReservedWord w = true ↔ 5 ≤ w.toNat := by
  simp only [isReservedWord, Bool.and_eq_true, bne_iff_ne, ne_eq, ← BitVec.toNat_inj, BitVec.toNat_ofNat]
  omega

theorem decode_of_isReservedWord {w : Word} (h : isReservedWord w = true) : decode w = .reserved w := by
  simp only [isReservedWord, Bool.and_eq_true, bne_iff_ne, ne_eq] at h
  obtain ⟨⟨⟨⟨h0, h1⟩, h2⟩, h3⟩, h4⟩ := h
  rw [decode, if_neg h0, if_neg h1, if_neg h2, if_neg h3, if_neg h4]

/-- Decoding yields a `reserved` term for reserved words only (30_encoding.md R100). -/
theorem wellFormed_decode (w : Word) : (decode w).wellFormed = true := by
  unfold decode
  split_ifs with h0 h1 h2 h3 h4
  case neg => simp [Instr.wellFormed, isReservedWord, h0, h1, h2, h3, h4]
  all_goals rfl

theorem decode_encode {i : Instr} (h : i.wellFormed = true) : decode (encode i) = i := by
  cases i with
  | reserved w => exact decode_of_isReservedWord h
  | nop | enc | dec | decn | clr => rfl

theorem decode_eq_reserved_iff {w : Word} : decode w = .reserved w ↔ isReservedWord w = true := by
  refine ⟨fun h => ?_, decode_of_isReservedWord⟩
  have hw := wellFormed_decode w
  rwa [h] at hw

/-- The two fields of `CMD32` hold the whole word (30_encoding.md R98). -/
theorem toNat_eq_fields (w : Word) : w.toNat = (opField w).toNat + 256 * (zeroField w).toNat := by
  simp only [opField, zeroField, BitVec.extractLsb'_toNat, Nat.shiftRight_eq_div_pow]
  omega

/-- Settles O5: a word is reserved when its value is 5 or more, and its value is `op` plus 256 times `zero`. -/
theorem reservedWordsByField : Obligations.ReservedWordsByField := by
  intro w
  have hzero : zeroField w ≠ 0 ↔ (zeroField w).toNat ≠ 0 := BitVec.toNat_inj.not.symm
  rw [decode_eq_reserved_iff, isReservedWord_iff, toNat_eq_fields, hzero]
  omega

/-- Settles O2. -/
theorem decodeOfEncodeIsTheCommand : Obligations.DecodeOfEncodeIsTheCommand :=
  fun _ => decode_encode

/-- Settles O3. -/
theorem encodeOfDecodeIsTheWord : Obligations.EncodeOfDecodeIsTheWord :=
  fun w => ⟨Machine.encode_decode w, wellFormed_decode w⟩

/-- Settles O4: each of the words is, as written, the encoding of a well-formed command. -/
theorem writtenOutWordsDecode : Obligations.WrittenOutWordsDecode :=
  ⟨decode_encode (i := .nop) rfl, decode_encode (i := .enc) rfl, decode_encode (i := .dec) rfl,
    decode_encode (i := .decn) rfl, decode_encode (i := .clr) rfl, decode_encode (i := .reserved 5) rfl,
    decode_encode (i := .reserved 0x101) rfl, decode_encode (i := .reserved 0x80000000) rfl⟩

end Sys2Proof
end

section
/-! The alphabet ROM and the reverse-lookup table: the content of each in closed form, and that the table inverts the ROM
(30_encoding.md R92, R94). -/

namespace Sys2Proof.Machine

/-- The content of the alphabet ROM in closed form (30_encoding.md R92). -/
theorem a38_toNat : ∀ v : Digit, (a38 v).toNat =
    if v.val < 10 then 0x30 + v.val else if v.val < 36 then 0x37 + v.val else if v.val = 36 then 0x2D else 0x2E := by
  decide

/-- The reverse table by the ranges of codes: two signs, the digits, the letters, and no other code
(30_encoding.md R94). -/
theorem r38_cases (c : Byte) :
    ((r38 c).valid = true ∧
      (c = 0x2D#8 ∧ digitValue c = 36 ∨ c = 0x2E#8 ∧ digitValue c = 37 ∨
        (0x30 ≤ c.toNat ∧ c.toNat ≤ 0x39) ∧ digitValue c = c.toNat - 0x30 ∨
        (0x41 ≤ c.toNat ∧ c.toNat ≤ 0x5A) ∧ digitValue c = c.toNat - 0x37)) ∨
    (r38 c = ⟨false, 0⟩ ∧ c ≠ 0x2D#8 ∧ c ≠ 0x2E#8 ∧ ¬(0x30 ≤ c.toNat ∧ c.toNat ≤ 0x39) ∧
      ¬(0x41 ≤ c.toNat ∧ c.toNat ≤ 0x5A)) := by
  have := c.isLt
  unfold digitValue r38
  split_ifs with hminus hdot hdigit hletter
  · exact .inl ⟨rfl, .inl ⟨hminus, rfl⟩⟩
  · exact .inl ⟨rfl, .inr (.inl ⟨hdot, rfl⟩)⟩
  · simp only [BitVec.le_def, BitVec.toNat_ofNat] at hdigit
    refine .inl ⟨rfl, .inr (.inr (.inl ⟨hdigit, ?_⟩))⟩
    simp only [BitVec.toNat_setWidth, BitVec.toNat_sub, BitVec.toNat_ofNat]
    omega
  · simp only [BitVec.le_def, BitVec.toNat_ofNat] at hletter
    refine .inl ⟨rfl, .inr (.inr (.inr ⟨hletter, ?_⟩))⟩
    simp only [BitVec.toNat_setWidth, BitVec.toNat_sub, BitVec.toNat_ofNat]
    omega
  · exact .inr ⟨rfl, hminus, hdot, hdigit, hletter⟩

/-- The valid codes in closed form (30_encoding.md R94). -/
theorem r38_valid_iff {c : Byte} : (r38 c).valid = true ↔
    c = 0x2D#8 ∨ c = 0x2E#8 ∨ (0x30 ≤ c.toNat ∧ c.toNat ≤ 0x39) ∨ (0x41 ≤ c.toNat ∧ c.toNat ≤ 0x5A) := by
  obtain ⟨hv, hc⟩ | ⟨hr, hc⟩ := r38_cases c
  · exact iff_of_true hv (by tauto)
  · exact iff_of_false (by simp [hr]) (by tauto)

theorem r38_val_of_invalid {c : Byte} (h : (r38 c).valid = false) : (r38 c).val = 0 := by
  obtain ⟨hv, _⟩ | ⟨hr, _⟩ := r38_cases c
  · simp [h] at hv
  · rw [hr]

/-- The alphabet ROM gives a valid code back from its value (30_encoding.md R94). -/
theorem a38_digitValue {c : Byte} (h : (r38 c).valid = true) : a38 ⟨digitValue c, digitValue_lt c⟩ = c := by
  apply BitVec.eq_of_toNat_eq
  rw [a38_toNat]
  obtain ⟨_, hc⟩ | ⟨hr, _⟩ := r38_cases c
  · obtain ⟨rfl, hd⟩ | ⟨rfl, hd⟩ | ⟨hc, hd⟩ | ⟨hc, hd⟩ := hc
    · rfl
    · rfl
    all_goals
      dsimp only
      split_ifs <;> omega
  · simp [hr] at h

/-- A table entry and the ROM entry of its value name each other (30_encoding.md R94). -/
theorem valid_and_digitValue_iff {c : Byte} {v : Digit} : (r38 c).valid = true ∧ digitValue c = v.val ↔ a38 v = c := by
  constructor
  · rintro ⟨hv, hd⟩
    obtain rfl : ⟨digitValue c, digitValue_lt c⟩ = v := Fin.ext hd
    exact a38_digitValue hv
  · rintro rfl
    exact ⟨valid_a38 v, digitValue_a38 v⟩

theorem valid_iff_exists_a38 {c : Byte} : (r38 c).valid = true ↔ ∃ v : Digit, a38 v = c := by
  constructor
  · exact fun h => ⟨_, a38_digitValue h⟩
  · rintro ⟨v, rfl⟩
    exact valid_a38 v

theorem a38_injective {u v : Digit} (h : a38 u = a38 v) : u = v :=
  Fin.ext (by rw [← digitValue_a38 u, h, digitValue_a38])

/-- Settles O6: the ROM's closed form, and the table read by its ranges as the ROM's inverse. -/
theorem reverseTableInvertsAlphabet : Obligations.ReverseTableInvertsAlphabet := by
  refine ⟨fun v => ⟨fun h => ?_, fun h10 h36 => ?_⟩, rfl, rfl, fun _ => r38_valid_iff,
    fun _ _ => valid_and_digitValue_iff, fun _ => valid_iff_exists_a38, fun _ => r38_val_of_invalid,
    fun _ _ => a38_injective⟩
  · rw [a38_toNat, if_pos h]
  · rw [a38_toNat, if_neg (Nat.not_lt.2 h10), if_pos h36]

end Sys2Proof.Machine
end

section
/-! The stripper of `MT:`: the decoder sees it only through the offset of the cleaned input, and a larger
offset changes the recorded position alone (30_encoding.md R95, 42_decoder.md R182). -/

namespace Sys2Proof.Machine

theorem prefixOffset_false (s : List Byte) : prefixOffset false s = 0 := rfl

theorem prefixOffset_pfx_append (p : List Byte) : prefixOffset true (pfx ++ p) = 3 :=
  if_pos ⟨rfl, by simp [pfx], rfl⟩

theorem prefixOffset_of_ne_pfx {s : List Byte} (h : s.take 3 ≠ pfx) (strip : Bool) : prefixOffset strip s = 0 :=
  if_neg fun ⟨_, _, hs⟩ => h hs

/-- The scan counts from its start index. -/
theorem firstInvalid_add (i k : Nat) (t : List Byte) :
    firstInvalid (i + k) t = (firstInvalid i t).map fun p => (p.1, p.2 + k) := by
  induction t generalizing i with
  | nil => rfl
  | cons c cs ih =>
    rw [firstInvalid, firstInvalid]
    split_ifs
    · rw [Nat.add_right_comm, ih]
    · rfl

/-- The same cleaned input at an offset `k` larger decodes to the same result, its position `k` larger. -/
theorem decodeText_of_offset_add {strip strip' : Bool} {s s' : List Byte} {k : Nat}
    (hoff : prefixOffset strip' s' = prefixOffset strip s + k) (ht : cleaned strip' s' = cleaned strip s) :
    decodeText strip' s' = shiftPosition k (decodeText strip s) := by
  simp only [cleaned, hoff] at ht
  simp only [decodeText, hoff, ht, firstInvalid_add]
  cases firstInvalid (prefixOffset strip s) (s.drop (prefixOffset strip s)) with
  | some p => rfl
  | none =>
    dsimp only [Option.map_none]
    split_ifs
    · rfl
    · split
      · rfl
      · split <;> rfl

/-- The two decoding functions differ in the offset alone (42_decoder.md R181, R182). -/
theorem decodeText_congr_offset {strip strip' : Bool} {s : List Byte}
    (h : prefixOffset strip s = prefixOffset strip' s) : decodeText strip s = decodeText strip' s := by
  simp only [decodeText, h]

/-- An offender found by the scan is the result (42_decoder.md R183). -/
theorem decodeText_of_firstInvalid {strip : Bool} {s : List Byte} {c : Byte} {i : Nat}
    (h : firstInvalid (prefixOffset strip s) (cleaned strip s) = some (c, i)) :
    decodeText strip s = .err .invalidCharacter c i := by
  rw [cleaned] at h
  simp only [decodeText, h]

/-- The first two symbols of `PFX` are in the alphabet and its colon is not (30_encoding.md R95). -/
theorem firstInvalid_pfx_append (p : List Byte) : firstInvalid 0 (pfx ++ p) = some (0x3A#8, 2) := rfl

/-- Settles O13: stripping leaves the rest of the text at offset 3, and without `MT:` the offset is 0 either way. -/
theorem prefixIsStrippedAtMostOnce : Obligations.PrefixIsStrippedAtMostOnce := by
  refine ⟨rfl, fun p => ?_, fun s hs => ?_, fun p => ?_⟩
  · refine decodeText_of_offset_add (prefixOffset_pfx_append p) ?_
    rw [cleaned, cleaned, prefixOffset_pfx_append, prefixOffset_false]
    rfl
  · exact decodeText_congr_offset ((prefixOffset_of_ne_pfx hs true).trans (prefixOffset_false s).symm)
  · exact decodeText_of_firstInvalid (firstInvalid_pfx_append p)

end Sys2Proof.Machine
end

section
/-! The commands as the host issues them: a write to `CMD` runs the decoded command, and each command has its two cases,
dropped while one runs and accepted otherwise (40_commands.md R123 to R127). -/

namespace Sys2Proof.Machine

/-- The write of a command word runs the command, busy or not (40_commands.md R124). -/
theorem step_issueWord_eq_exec {s : State} {w : Word} {rest : List AgentStep} (hp : s.pending = issueWord w :: rest) :
    step s = exec (decode w) (s.withPending rest) :=
  step_of_pending hp

/-- A 32-bit word is placed whole (30_encoding.md R98). -/
theorem State.withFetchWord_pending (s : State) (w : Word) :
    (s.withFetchWord 32 w.toNat).pending = issueWord w :: s.pending := by
  simp [State.withFetchWord, Nat.mod_eq_of_lt w.isLt]

/-- Settles O1: a placed word is a pending write, and a pending write runs its command. -/
theorem stepRunsTheDecodedCommand : Obligations.StepRunsTheDecodedCommand :=
  fun s w _ => ⟨step_issueWord_eq_exec, step_issueWord_eq_exec (s.withFetchWord_pending w)⟩

theorem exec_of_busy {s : State} (running : s.block.busy = true) (i : Instr) :
    exec i s = .next (s.withBlock s.block.drop) := by
  rw [exec_eq, Block.unlessBusy_of_busy running]

theorem exec_of_idle {s : State} (idle : s.block.busy = false) (i : Instr) :
    exec i s = .next (s.withBlock (s.block.accepted i)) := by
  rw [exec_eq, Block.unlessBusy_of_idle idle]

theorem Block.accepted_of_launching (b : Block) {i : Instr} (hi : i.commandClass = .launching) :
    b.accepted i = b.launch (encode i) := by
  cases i with
  | nop | clr => cases hi
  | enc | dec | decn | reserved w => rfl

theorem Block.irq_of_not_done {b : Block} (h : b.done = false) : b.irq = false := by
  rw [Block.irq, h, Bool.and_false]

/-- Settles O24: a dropped write sets `HZD` alone. -/
theorem commandsWhileBusyAreDropped : Obligations.CommandsWhileBusyAreDropped :=
  fun i _ running => exec_of_busy running i

/-- Settles O21: an accepted `NOP` records its word, 0. -/
theorem nopOnlyRecordsItsWord : Obligations.NopOnlyRecordsItsWord :=
  fun _ => ⟨fun idle => exec_of_idle idle .nop, fun running => exec_of_busy running .nop⟩

/-- Settles O22: with `DONE` and `OLEN` cleared neither the interrupt nor any output is left. -/
theorem clrClearsOutcomeAndHazard : Obligations.ClrClearsOutcomeAndHazard := by
  refine fun s => ⟨fun idle => ?_, fun running => exec_of_busy running .clr⟩
  exact ⟨_, exec_of_idle idle .clr, rfl, Block.irq_of_not_done rfl,
    fun j => Block.obufWindow_of_olen_le (Nat.zero_le j), fun _ => rfl, fun _ => rfl⟩

/-- Settles O23: every launching command is accepted as the one launch. -/
theorem launchingCommandsLaunch : Obligations.LaunchingCommandsLaunch := by
  intro i s _ hi idle
  have launched : exec i s = .next (s.withBlock (s.block.launch (encode i))) := by
    rw [exec_of_idle idle, Block.accepted_of_launching _ hi]
  exact ⟨_, launched, rfl, Block.irq_of_not_done rfl,
    fun j => Block.obufWindow_of_olen_le (Nat.zero_le j), fun _ => rfl, fun _ => rfl⟩

end Sys2Proof.Machine
end

section
/-! The result of a launched command by its word, the room its output and its position take, and the completion that
publishes it (40_commands.md R128 to R130, 60_exceptions.md R227). -/

namespace Sys2Proof.Machine

theorem commandResult_of_enc {b : Block} (h : b.cmd = 1) :
    commandResult b = b.onInput fun s => .ok (encodeBytes s) := by
  rw [commandResult, h]
  rfl

theorem commandResult_of_dec {b : Block} (h : b.cmd = 2) : commandResult b = b.onInput (decodeText true) := by
  rw [commandResult, h]
  rfl

theorem commandResult_of_decn {b : Block} (h : b.cmd = 3) : commandResult b = b.onInput (decodeText false) := by
  rw [commandResult, h]
  rfl

/-- Every word but those of `ENC`, `DEC` and `DECN` is a bad command (60_exceptions.md R224). -/
theorem commandResult_of_other {b : Block} (h1 : b.cmd ≠ 1) (h2 : b.cmd ≠ 2) (h3 : b.cmd ≠ 3) :
    commandResult b = .err .badCommand 0 0 := by
  have word : encode (decode b.cmd) = b.cmd := encode_decode b.cmd
  unfold commandResult
  cases hd : decode b.cmd with
  | enc => exact absurd (hd ▸ word).symm h1
  | dec => exact absurd (hd ▸ word).symm h2
  | decn => exact absurd (hd ▸ word).symm h3
  | nop | clr | reserved w => rfl

/-- The three words with an operand run one function on it (40_commands.md R129). -/
theorem commandResult_eq_onInput {b : Block} (h : b.cmd = 1 ∨ b.cmd = 2 ∨ b.cmd = 3) :
    ∃ f, commandResult b = b.onInput f ∧ (f = (fun s => .ok (encodeBytes s)) ∨ ∃ strip, f = decodeText strip) := by
  obtain h | h | h := h
  · exact ⟨_, commandResult_of_enc h, .inl rfl⟩
  · exact ⟨_, commandResult_of_dec h, .inr ⟨true, rfl⟩⟩
  · exact ⟨_, commandResult_of_decn h, .inr ⟨false, rfl⟩⟩

/-- Settles O29: the word picks the function, the guard on `ILEN` comes before it, and both read the same few things. -/
theorem resultIsAFunctionOfWordLengthInput : Obligations.ResultIsAFunctionOfWordLengthInput := by
  refine ⟨fun b => ⟨commandResult_of_other, fun hw overrun => ?_, fun fits => ?_⟩, fun _ _ => commandResult_congr⟩
  · obtain ⟨f, hf, _⟩ := commandResult_eq_onInput hw
    rw [hf, Block.onInput_of_lt overrun]
  · exact ⟨fun h => (commandResult_of_enc h).trans (Block.onInput_of_le fits _),
      fun h => (commandResult_of_dec h).trans (Block.onInput_of_le fits _),
      fun h => (commandResult_of_decn h).trans (Block.onInput_of_le fits _)⟩

theorem length_le_of_commandResult_ok {b : Block} {out : List Byte} (h : commandResult b = .ok out) :
    out.length ≤ b.obufSize := by
  have sound := sound_commandResult b
  rwa [h] at sound

/-- Settles O30: `OBUF_SIZE` is `encLen(IBUF_SIZE)`. -/
theorem outputAlwaysFits : Obligations.OutputAlwaysFits :=
  fun _ _ => length_le_of_commandResult_ok

/-- The two errors of the decoder, each with what it records (42_decoder.md R183, R185). -/
theorem decodeText_err_cases {strip : Bool} {s : List Byte} {code : ErrorCode} {ch : Byte} {pos : Nat}
    (h : decodeText strip s = .err code ch pos) :
    (code = .invalidCharacter ∧ firstInvalid (prefixOffset strip s) (cleaned strip s) = some (ch, pos)) ∨
    (code = .invalidLength ∧ ch = 0 ∧ pos = (cleaned strip s).length) := by
  simp only [decodeText] at h
  split at h
  · rename_i hf
    cases h
    exact .inl ⟨rfl, hf⟩
  · split at h
    · cases h
    · split at h
      · cases h
        exact .inr ⟨rfl, rfl, rfl⟩
      · split at h
        · cases h
        · cases h
          exact .inr ⟨rfl, rfl, rfl⟩

/-- A recorded position lies in the input, or is its cleaned length. -/
theorem decodeText_pos_le {strip : Bool} {s : List Byte} {code : ErrorCode} {ch : Byte} {pos : Nat}
    (h : decodeText strip s = .err code ch pos) : pos ≤ s.length := by
  have len : (cleaned strip s).length = s.length - prefixOffset strip s := List.length_drop
  obtain ⟨_, hf⟩ | ⟨_, _, rfl⟩ := decodeText_err_cases h
  · obtain ⟨_, hi, _⟩ := firstInvalid_eq_some.1 hf
    obtain ⟨hlt, _⟩ := List.getElem?_eq_some_iff.1 hi
    omega
  · omega

theorem commandResult_pos_le {b : Block} {code : ErrorCode} {ch : Byte} {pos : Nat}
    (h : commandResult b = .err code ch pos) : pos ≤ b.ibufSize := by
  by_cases hw : b.cmd = 1 ∨ b.cmd = 2 ∨ b.cmd = 3
  · obtain ⟨f, hf, hcase⟩ := commandResult_eq_onInput hw
    rw [hf] at h
    rcases Nat.lt_or_ge b.ibufSize b.ilen.toNat with overrun | fits
    · cases (b.onInput_of_lt overrun f).symm.trans h
      exact Nat.zero_le _
    · rw [Block.onInput_of_le fits] at h
      obtain rfl | ⟨strip, rfl⟩ := hcase
      · cases h
      · exact Nat.le_trans (decodeText_pos_le h) (b.input_length.symm ▸ fits)
  · simp only [not_or] at hw
    obtain ⟨h1, h2, h3⟩ := hw
    cases (commandResult_of_other h1 h2 h3).symm.trans h
    exact Nat.zero_le _

/-- What `OLEN` or `EPOS` is to hold fits a register (10_state.md R29, R39). -/
def CommandResult.FitsRegister : CommandResult → Prop
  | .ok out => out.length < 2 ^ 32
  | .err _ _ pos => pos < 2 ^ 32

theorem commandResult_fitsRegister {b : Block} (legal : Config.legalIbufSize b.ibufSize) :
    (commandResult b).FitsRegister := by
  obtain ⟨_, hsize⟩ := legal
  cases hr : commandResult b with
  | ok out =>
    have hout : out.length ≤ Config.encLen 1024 :=
      Nat.le_trans (length_le_of_commandResult_ok hr) (encLen_mono hsize)
    exact Nat.lt_of_le_of_lt hout (by decide)
  | err code ch pos => exact Nat.lt_of_le_of_lt (Nat.le_trans (commandResult_pos_le hr) hsize) (by decide)

/-- No outcome is recorded: the registers stand as a launch leaves them (40_commands.md R127). -/
structure Block.NoOutcome (b : Block) : Prop where
  err : b.err = false
  olen : b.olen = 0
  ecode : b.ecode = .none
  echar : b.echar = 0
  epos : b.epos = 0

theorem Block.launch_noOutcome (b : Block) (w : Word) : (b.launch w).NoOutcome := ⟨rfl, rfl, rfl, rfl, rfl⟩

theorem Block.Inv.noOutcome {b : Block} (h : b.Inv) (running : b.busy = true) : b.NoOutcome := by
  obtain ⟨_, err⟩ := h.flags.busy_flags running
  obtain ⟨olen, ecode, echar, epos⟩ := h.flags.busy_outcome running
  exact ⟨err, olen, ecode, echar, epos⟩

/-- The host can read exactly the output of a command that succeeds (10_state.md R32). -/
theorem Block.result_finish (b : Block) {out : List Byte} (h : out.length < 2 ^ 32) : (b.finish out).result = out := by
  have olen : (b.finish out).olen.toNat = out.length := Nat.mod_eq_of_lt h
  rw [Block.result, olen]
  refine firstSymbols_eq_of_getElem fun i hi => ?_
  rw [Block.obufByte_finish, dif_pos hi]

/-- A completion from a block without an outcome publishes its result (40_commands.md R128, 60_exceptions.md R227). -/
theorem Block.publish_published {b : Block} {r : CommandResult} (clear : b.NoOutcome) (fits : r.FitsRegister) :
    b.Published r (b.publish r) := by
  have irq : (b.publish r).irq = b.ie := by simp [Block.irq]
  cases r with
  | ok out =>
    exact ⟨rfl, rfl, rfl, rfl, rfl, fun _ => rfl, rfl, rfl, irq, clear.err, clear.ecode, clear.echar, clear.epos,
      Nat.mod_eq_of_lt fits, b.result_finish fits⟩
  | err code ch pos =>
    have olen : (b.enterError code ch pos).olen = 0 := clear.olen
    exact ⟨rfl, rfl, rfl, rfl, rfl, fun _ => rfl, rfl, rfl, irq, rfl, rfl, rfl, Nat.mod_eq_of_lt fits, olen,
      fun j => Block.obufWindow_of_olen_le (olen ▸ Nat.zero_le j)⟩

/-- A named completion of a running command (40_commands.md R128). -/
theorem step_completion {s : State} {rest : List AgentStep} (running : s.block.busy = true)
    (hp : s.pending = .engineCompletion :: rest) :
    step s = .next ((s.withPending rest).withBlock (s.block.publish (commandResult s.block))) := by
  rw [step_engineCompletion hp, engineStep_of_busy running]

/-- Settles O31: while a command runs no outcome is recorded, and its result fits the registers. -/
theorem completionPublishesTheResult : Obligations.CompletionPublishesTheResult := by
  intro s rest hinv running hp
  exact ⟨_, step_completion running hp, rfl, rfl, s.block.publish_cmd _,
    Block.publish_published (hinv.noOutcome running) (commandResult_fitsRegister hinv.buffers.size_legal)⟩

end Sys2Proof.Machine
end

section
/-! The tables of the host port: the word a read returns and the block a write leads to, offset by offset
(20_memory.md R61, 40_commands.md R122, R123). -/

namespace Sys2Proof.Machine

/-- The word indices between `CAP` and the `IBUF` window are unmapped (20_memory.md R61). -/
theorem locate_above_registers {n k : Nat} (h9 : 0x0024 ≤ 4 * k) (hk : 4 * k < 0x1000) :
    locate n (wordIndex (4 * k)) = .unmapped := by
  have index : (wordIndex (4 * k)).toNat = k := by
    rw [wordIndex_toNat (by omega), Nat.mul_div_cancel_left k (by decide)]
  rw [locate_low (by omega), index, registerAt_high (by omega)]

theorem bit_eq_ofNat (v : Bool) : bit v = BitVec.ofNat 32 v.toNat := by cases v <;> rfl

/-- `STATUS` as the number of its four flags (10_state.md R25). -/
theorem Block.statusWord_eq (b : Block) : b.statusWord =
    BitVec.ofNat 32 (b.busy.toNat + 2 * b.done.toNat + 4 * b.err.toNat + 8 * b.hzd.toNat) := by
  simp only [Block.statusWord, bit_eq_ofNat, BitVec.ofNat_add, BitVec.ofNat_mul]

theorem State.answers_of_locate {s : State} {a : PortIndex} {l : Location} (h : locate s.block.ibufSize a = l) :
    s.answers a (readLocation s.block l) :=
  h ▸ s.answers_memRead a

/-- Settles O34: each offset leads to its location, and the word of that location is the one in the table. -/
theorem hostReadTable : Obligations.HostReadTable := by
  intro s
  have ecode (code : ErrorCode) (h : s.block.ecode = code) :
      s.answers (wordIndex 0x0014) (code.bits.setWidth 32) := by
    subst h
    exact State.answers_of_locate (l := .ecode) rfl
  refine ⟨bit_eq_ofNat _ ▸ State.answers_of_locate (l := .ctrl) rfl,
    Block.statusWord_eq _ ▸ State.answers_of_locate (l := .status) rfl,
    State.answers_of_locate (l := .cmd) rfl, State.answers_of_locate (l := .ilen) rfl,
    State.answers_of_locate (l := .olen) rfl, ⟨ecode _, ecode _, ecode _, ecode _, ecode _⟩,
    State.answers_of_locate (l := .echar) rfl, State.answers_of_locate (l := .epos) rfl,
    State.answers_of_locate (l := .cap) rfl, fun i hi hw => ?_, fun j hj hw => ?_, fun k h9 hk => ?_,
    fun i hi hw => ?_, fun j hj hw => ?_⟩
  · exact State.answers_of_locate ((locate_ibuf hw).trans (if_pos hi))
  · exact State.answers_of_locate ((locate_obuf hw).trans (if_pos hj))
  · exact State.answers_of_locate (locate_above_registers h9 hk)
  · exact State.answers_of_locate ((locate_ibuf hw).trans (if_neg (Nat.not_lt.2 hi)))
  · exact State.answers_of_locate ((locate_obuf hw).trans (if_neg (Nat.not_lt.2 hj)))

theorem State.becomes_of_locate {s : State} {a : PortIndex} {l : Location} (h : locate s.block.ibufSize a = l)
    (d : Word) : s.becomes a d (s.block.written d l) :=
  State.becomes_iff.2 (h ▸ rfl)

/-- A write to a read-only or unmapped location is dropped, busy or not (40_commands.md R123 case 1). -/
theorem State.becomes_drop_of_not_writable {s : State} {a : PortIndex}
    (h : (locate s.block.ibufSize a).writable = false) (d : Word) : s.becomes a d s.block.drop := by
  rw [State.becomes_iff]
  cases hl : locate s.block.ibufSize a with
  | ctrl | cmd | ilen | ibuf i => rw [hl] at h; cases h
  | _ => rfl

/-- While a command runs every write is dropped (40_commands.md R123 cases 1 and 2). -/
theorem State.becomes_drop_of_busy {s : State} (running : s.block.busy = true) (a : PortIndex) (d : Word) :
    s.becomes a d s.block.drop :=
  State.becomes_iff.2 (Block.written_of_busy running d _).symm

theorem locate_obuf_not_writable {n j : Nat} (h : j < 2048) :
    (locate n (wordIndex (obufOffset j))).writable = false := by
  rw [locate_obuf h]
  split <;> rfl

/-- A word below 256 is a symbol widened to a word (20_memory.md R63). -/
theorem zextByte_ofNat_toNat {d : Word} (h : d.toNat < 256) : zextByte (BitVec.ofNat 8 d.toNat) = d := by
  apply BitVec.eq_of_toNat_eq
  simp only [zextByte, BitVec.toNat_setWidth, BitVec.toNat_ofNat]
  omega

theorem Block.writeSymbol_of_lt (b : Block) (i : Nat) {d : Word} (h : d.toNat < 256) :
    b.writeSymbol i d = b.setIbuf i (BitVec.ofNat 8 d.toNat) := by
  conv_lhs => rw [← zextByte_ofNat_toNat h]
  exact b.writeSymbol_zextByte i _

theorem Block.writeSymbol_of_le (b : Block) (i : Nat) {d : Word} (h : 256 ≤ d.toNat) : b.writeSymbol i d = b.drop :=
  if_pos fun zero => absurd (toNat_lt_of_high_zero zero) (Nat.not_lt.2 h)

/-- A write to an entry of `IBUF` while no command runs (40_commands.md R123 case 5). -/
theorem State.becomes_writeSymbol {s : State} (idle : s.block.busy = false) {i : Nat} (hi : i < s.block.ibufSize)
    (hw : i < 1024) (d : Word) : s.becomes (wordIndex (ibufOffset i)) d (s.block.writeSymbol i d) := by
  have h := State.becomes_of_locate ((locate_ibuf hw).trans (if_pos hi)) d
  rwa [Block.written, Block.unlessBusy_of_idle idle] at h

/-- Settles O35: the cases of R123 in order, each location found by its offset. -/
theorem hostWriteTable : Obligations.HostWriteTable := by
  intro s d
  have unmapped {a : PortIndex} (h : locate s.block.ibufSize a = .unmapped) : s.becomes a d s.block.drop :=
    State.becomes_of_locate h d
  refine ⟨fun off hoff => ?_, fun k h9 hk => unmapped (locate_above_registers h9 hk),
    fun i hi hw => unmapped ((locate_ibuf hw).trans (if_neg (Nat.not_lt.2 hi))),
    fun j hj => State.becomes_drop_of_not_writable (locate_obuf_not_writable hj) d,
    fun running => ⟨fun off _ => State.becomes_drop_of_busy running (wordIndex off) d,
      fun i _ => State.becomes_drop_of_busy running (wordIndex (ibufOffset i)) d⟩,
    fun idle => ⟨?_, ?_, fun rest => step_issueWord_eq_exec rfl, fun i hi hw hd => ?_, fun i hi hw hd => ?_⟩⟩
  · refine State.becomes_drop_of_not_writable ?_ d
    simp only [List.mem_cons, List.not_mem_nil, or_false] at hoff
    obtain rfl | rfl | rfl | rfl | rfl | rfl := hoff
    all_goals rfl
  · have h := State.becomes_of_locate (locate_ctrl s.block.ibufSize) d
    rwa [Block.written, Block.unlessBusy_of_idle idle] at h
  · have h := State.becomes_of_locate (locate_ilen s.block.ibufSize) d
    rwa [Block.written, Block.unlessBusy_of_idle idle] at h
  · have h := State.becomes_writeSymbol idle hi hw d
    rwa [Block.writeSymbol_of_le _ _ hd] at h
  · have h := State.becomes_writeSymbol idle hi hw d
    rw [Block.writeSymbol_of_lt _ _ hd] at h
    have entry (j : Nat) := s.block.ibufByte_setIbuf i j (BitVec.ofNat 8 d.toNat)
    exact ⟨_, h, (entry i).trans (if_pos rfl), fun j hj => (entry j).trans (if_neg hj)⟩

end Sys2Proof.Machine
end

section
/-! `LOAD`, a command and its completion as one run: the loading writes leave the input in the block, and the command's
result is published from it (40_commands.md R133, 30_encoding.md R102). -/

namespace Sys2Proof.Machine

theorem core_run_add {m : Nat} {s t : State} (h : core.run m s = .next t) (n : Nat) :
    core.run (m + n) s = core.run n t := by
  induction m generalizing s with
  | zero =>
    obtain rfl : s = t := Host.Outcome.next.inj h
    rw [Nat.zero_add]
  | succ m ih =>
    obtain ⟨r, hr⟩ := everyStepHasANextState s
    rw [Nat.succ_add, core_run_succ hr]
    exact ih ((core_run_succ hr m).symm.trans h)

/-- A write of a symbol into the `IBUF` window of an idle block (40_commands.md R123 case 5). -/
theorem step_storeSymbol {s : State} (idle : s.block.busy = false) {i : Nat} {v : Byte} {rest : List AgentStep}
    (hi : i < s.block.ibufSize) (hw : i < 1024) (hp : s.pending = wr (ibufOffset i) (zextByte v) :: rest) :
    step s = .next ((s.withPending rest).withBlock (s.block.setIbuf i v)) := by
  rw [step_hostWrite hp, locate_ibuf hw, if_pos hi, Block.written, Block.unlessBusy_of_idle idle,
    Block.writeSymbol_zextByte]

theorem step_setIlen {s : State} (idle : s.block.busy = false) {d : Word} {rest : List AgentStep}
    (hp : s.pending = wr 0x000C d :: rest) :
    step s = .next ((s.withPending rest).withBlock (s.block.setIlen d)) := by
  rw [step_hostWrite hp, locate_ilen, Block.written, Block.unlessBusy_of_idle idle]

/-- A launching word while no command runs (40_commands.md R127). -/
theorem step_launch {s : State} (idle : s.block.busy = false) {w : Word} {rest : List AgentStep}
    (hw : (decode w).commandClass = .launching) (hp : s.pending = issueWord w :: rest) :
    step s = .next ((s.withPending rest).withBlock (s.block.launch w)) := by
  rw [step_issueWord hp idle, Block.accepted_of_launching _ hw, encode_decode]

/-- The block with the symbols `vs` written into `IBUF` from index `i` on. -/
def Block.storeInput (b : Block) (i : Nat) (vs : List Byte) : Block := { b with ibuf := b.ibuf.storeFrom i vs }

/-- The symbol writes of `LOAD` (30_encoding.md R102). -/
theorem run_loadSymbols {vs : List Byte} {s : State} {i : Nat} {rest : List AgentStep} (idle : s.block.busy = false)
    (fits : i + vs.length ≤ s.block.ibufSize) (legal : s.block.ibufSize ≤ 1024)
    (hp : s.pending = loadSymbols i vs ++ rest) :
    core.run vs.length s = .next ((s.withPending rest).withBlock (s.block.storeInput i vs)) := by
  induction vs generalizing s i with
  | nil =>
    obtain rfl : s.pending = rest := hp
    rfl
  | cons v vs ih =>
    rw [List.length_cons] at fits
    have stored := step_storeSymbol idle (by omega) (by omega) hp
    exact (core_run_succ stored vs.length).trans (ih idle (Nat.add_right_comm i 1 vs.length ▸ fits) legal rfl)

/-- The block after `LOAD vs` (30_encoding.md R102). -/
def Block.loaded (b : Block) (vs : List Byte) : Block :=
  (b.storeInput 0 vs).setIlen (BitVec.ofNat 32 vs.length)

theorem run_loadTransactions {s : State} {vs : List Byte} {rest : List AgentStep} (idle : s.block.busy = false)
    (legal : Config.legalIbufSize s.block.ibufSize) (fits : vs.length ≤ s.block.ibufSize)
    (hp : s.pending = loadTransactions vs ++ rest) :
    core.run (vs.length + 1) s = .next ((s.withPending rest).withBlock (s.block.loaded vs)) := by
  rw [loadTransactions, List.append_assoc] at hp
  obtain ⟨_, hsize⟩ := legal
  have symbols := run_loadSymbols idle (by omega) hsize hp
  exact (core_run_add symbols 1).trans
    (core_run_succ (step_setIlen (s := (s.withPending _).withBlock (s.block.storeInput 0 vs)) idle rfl) 0)

/-- `LOAD vs`, the issue of a launching word, and the completion. -/
theorem run_load_command {s : State} {vs : List Byte} {w : Word} {rest : List AgentStep} (idle : s.block.busy = false)
    (legal : Config.legalIbufSize s.block.ibufSize) (fits : vs.length ≤ s.block.ibufSize)
    (hw : (decode w).commandClass = .launching)
    (hp : s.pending = loadTransactions vs ++ issueWord w :: .engineCompletion :: rest) :
    core.run (vs.length + 3) s = .next ((s.withPending rest).withBlock
      (((s.block.loaded vs).launch w).publish (commandResult ((s.block.loaded vs).launch w)))) := by
  have load := run_loadTransactions idle legal fits hp
  have launch := step_launch (s := (s.withPending _).withBlock (s.block.loaded vs)) idle
    (rest := .engineCompletion :: rest) hw rfl
  have completion := step_completion (s := (s.withPending _).withBlock ((s.block.loaded vs).launch w))
    (rest := rest) rfl rfl
  exact (core_run_add load 2).trans ((core_run_succ launch 1).trans (core_run_succ completion 0))

theorem Block.ibufByte_storeInput (b : Block) (vs : List Byte) {i : Nat} (hi : i < vs.length) :
    (b.storeInput 0 vs).ibufByte i = vs[i] := by
  simp [Block.ibufByte, Block.storeInput, Memory.cell?_storeFrom, hi]

/-- What `LOAD` wrote is the operand of the command launched on it (40_commands.md R129). -/
theorem Block.onInput_loaded (b : Block) {vs : List Byte} (legal : Config.legalIbufSize b.ibufSize)
    (fits : vs.length ≤ b.ibufSize) (w : Word) (f : List Byte → CommandResult) :
    ((b.loaded vs).launch w).onInput f = f vs := by
  obtain ⟨_, hsize⟩ := legal
  have ilen : ((b.loaded vs).launch w).ilen.toNat = vs.length := Nat.mod_eq_of_lt (by omega)
  have input : ((b.loaded vs).launch w).input = vs := by
    rw [Block.input, Block.inputLength, ilen]
    exact firstSymbols_eq_of_getElem fun _ hi => b.ibufByte_storeInput vs hi
  rw [Block.onInput_of_le (ilen.symm ▸ fits), input]

theorem Block.loaded_launch_published (b : Block) (vs : List Byte) (legal : Config.legalIbufSize b.ibufSize)
    (w : Word) : ((b.loaded vs).launch w).Published (commandResult ((b.loaded vs).launch w))
      (((b.loaded vs).launch w).publish (commandResult ((b.loaded vs).launch w))) :=
  Block.publish_published (Block.launch_noOutcome _ w) (commandResult_fitsRegister legal)

/-- Settles O49: the run publishes the encoding of what `LOAD` wrote. -/
theorem loadedBytesAreEncoded : Obligations.LoadedBytesAreEncoded := by
  intro s b rest idle legal fits hp
  have run := run_load_command idle legal fits rfl hp
  have published := s.block.loaded_launch_published b legal 1
  rw [commandResult_of_enc rfl, s.block.onInput_loaded legal fits] at run published
  obtain ⟨busy, done, _, hzd, _, _, _, _, _, err, _, _, _, _, result⟩ := published
  exact ⟨_, run, rfl, ⟨done, err⟩, busy, result, hzd⟩

/-- Settles O50: the run publishes the decoding of what `LOAD` wrote, or its error. -/
theorem loadedTextIsDecoded : Obligations.LoadedTextIsDecoded := by
  intro s t rest idle legal fits hp
  have run := run_load_command idle legal fits rfl hp
  have published := s.block.loaded_launch_published t legal 2
  rw [commandResult_of_dec rfl, s.block.onInput_loaded legal fits] at run published
  generalize decodeText true t = r at run published ⊢
  obtain ⟨busy, done, _, hzd, _, _, _, _, _, outcome⟩ := published
  refine ⟨_, run, rfl, busy, hzd, ?_⟩
  cases r with
  | ok out =>
    obtain ⟨err, _, _, _, _, result⟩ := outcome
    exact ⟨⟨done, err⟩, result⟩
  | err code ch pos =>
    obtain ⟨err, ecode, echar, epos, olen, _⟩ := outcome
    exact ⟨⟨done, err⟩, ecode, echar, epos, olen⟩

end Sys2Proof.Machine
end

section
/-! One chunk through the encoder: the chunk assembler and the divide chain as the two sides of one number, written to the
base 256 and to the base 38 (41_encoder.md R152 to R157). -/

namespace Sys2Proof.Machine

/-- A sum of digits, each with the power of the base at its index, is Mathlib's `Nat.ofDigits`. -/
theorem sum_zipIdx_pow_eq_ofDigits {α : Type} (base : Nat) (digit : α → Nat) (l : List α) :
    (l.zipIdx.map fun p => digit p.1 * base ^ p.2).sum = Nat.ofDigits base (l.map digit) := by
  rw [Nat.ofDigits_eq_sum_mapIdx, List.mapIdx_eq_zipIdx_map, List.zipIdx_map, List.map_map]
  rfl

theorem leValue_eq_ofDigits (c : List Byte) : leValue c = Nat.ofDigits 256 (c.map BitVec.toNat) := by
  induction c with
  | nil => rfl
  | cons v vs ih => rw [leValue_cons, ih, List.map_cons, Nat.ofDigits_cons]

theorem chunkValue_eq_ofDigits (e : List Byte) : chunkValue e = Nat.ofDigits 38 (e.map digitValue) := by
  induction e with
  | nil => rfl
  | cons c cs ih => rw [chunkValue_cons, ih, List.map_cons, Nat.ofDigits_cons]; ring

/-- The stages used hold the whole of a chunk's value (41_encoder.md R155). -/
theorem leValue_lt_of_charsNeeded {c : List Byte} {k : Nat} (hk : charsNeeded c.length = some k) :
    leValue c < 38 ^ k := by
  refine Nat.lt_of_lt_of_le (leValue_lt c) ?_
  obtain ⟨hn, rfl⟩ | ⟨hn, rfl⟩ | ⟨hn, rfl⟩ := charsNeeded_eq_some_iff.1 hk
  all_goals rw [hn]; decide

/-- The chain's digits, read as a number, are the part of the value its stages reach (41_encoder.md R154). -/
theorem ofDigits_chainDigits (k v : Nat) : Nat.ofDigits 38 ((chainDigits k v).map Fin.val) = v % 38 ^ k := by
  have values : ((chainDigits k v).map a38).map digitValue = (chainDigits k v).map Fin.val := by
    rw [List.map_map]
    exact List.map_congr_left fun d _ => digitValue_a38 d
  rw [← values, ← chunkValue_eq_ofDigits, chunkValue_chainDigits]

/-- A single chunk is encoded as itself (41_encoder.md R151). -/
theorem encodeBytes_of_charsNeeded {c : List Byte} {k : Nat} (hk : charsNeeded c.length = some k) :
    encodeBytes c = (chainDigits k (leValue c)).map a38 := by
  have hlen := charsNeeded_eq_some_iff.1 hk
  rw [encodeBytes_last (List.length_pos_iff.1 (by omega)) (by omega), encodeChunk_of_charsNeeded hk]

/-- Settles O7: a value below `38 ^ k` is the number its `k` chain digits write. -/
theorem divideChainHoldsTheWholeValue : Obligations.DivideChainHoldsTheWholeValue := by
  intro c h1 h3
  obtain ⟨k, hk, _⟩ := charsNeeded_cases h1 h3
  have whole := leValue_lt_of_charsNeeded hk
  refine ⟨k, hk, chainDigits_length _ _, Nat.div_eq_of_lt whole, ?_, ?_, encodeBytes_of_charsNeeded hk⟩
  · rw [sum_zipIdx_pow_eq_ofDigits 256 BitVec.toNat, leValue_eq_ofDigits]
  · rw [sum_zipIdx_pow_eq_ofDigits 38 Fin.val, ofDigits_chainDigits, Nat.mod_eq_of_lt whole]

end Sys2Proof.Machine
end

section
/-! The encoding of a whole byte sequence: its chunks are independent, its length is a function of the input's, its
symbols are the alphabet's, and the decoder gives the sequence back (41_encoder.md R151, R158 to R164). -/

namespace Sys2Proof.Machine

/-- Settles O8, by induction along the full chunks of the first sequence. -/
theorem byteChunksEncodeIndependently : Obligations.ByteChunksEncodeIndependently := by
  intro b rest hb
  induction b using chunk_induction (n := 3) (by decide) with
  | nil => rfl
  | short b h0 h3 => exact absurd (List.length_pos_iff.2 h0) (by omega)
  | full c b hc ih =>
    have hb' : b.length % 3 = 0 := by rwa [List.length_append, hc, Nat.add_mod_left] at hb
    rw [List.append_assoc, encodeBytes_append hc, encodeBytes_append hc, ih hb', List.append_assoc]

/-- Settles O9: past the full chunks stand the tail's characters, 0, 2 or 4. -/
theorem encodeLengthLaw : Obligations.EncodeLengthLaw := by
  refine fun b => ⟨length_encodeBytes b, rfl, ?_⟩
  rw [Config.encLen_mod_five, Config.tailChars]
  split_ifs <;> decide

/-- Every symbol of an encoding comes out of the alphabet ROM (41_encoder.md R161). -/
theorem mem_encodeBytes {b : List Byte} {x : Byte} (h : x ∈ encodeBytes b) : ∃ v, a38 v = x := by
  obtain ⟨c, _, hx⟩ := List.mem_flatMap.1 h
  exact mem_encodeChunk hx

/-- Settles O10: each chunk's characters are looked up in the alphabet ROM. -/
theorem encodeStaysInTheAlphabet : Obligations.EncodeStaysInTheAlphabet :=
  fun _ _ => mem_encodeBytes

theorem allValid_encodeBytes (b : List Byte) : allValid (encodeBytes b) := by
  intro x hx
  obtain ⟨v, rfl⟩ := mem_encodeBytes hx
  exact valid_a38 v

/-- Decoding one chunk's characters gives the chunk back: they hold its whole value. -/
theorem decodeChunk_encodeChunk {c : List Byte} {k : Nat} (hk : charsNeeded c.length = some k) :
    decodeChunk (encodeChunk c) = some c := by
  have hlen : ((chainDigits k (leValue c)).map a38).length = k := by rw [List.length_map, chainDigits_length]
  have hbytes : bytesFor ((chainDigits k (leValue c)).map a38).length = some c.length := by
    rw [hlen, charsNeeded_eq_some_iff_bytesFor.1 hk]
  rw [encodeChunk_of_charsNeeded hk, decodeChunk_of_bytesFor hbytes, chunkValue_chainDigits,
    Nat.mod_eq_of_lt (leValue_lt_of_charsNeeded hk), emitBytes_leValue]

theorem decodeChunks_cons {e out rest : List Byte} {es : List (List Byte)} (he : decodeChunk e = some out)
    (hes : decodeChunks es = some rest) : decodeChunks (e :: es) = some (out ++ rest) := by
  simp only [decodeChunks, he, hes]

/-- A text that splits at the length checker's last chunk into chunks that decode to `out` (42_decoder.md R185, R186). -/
def SplitsInto (t out : List Byte) : Prop :=
  ∃ last, lastChunkLength (t.length % 5) = some last ∧ last ≤ t.length ∧ decodeChunks (textChunks t last) = some out

/-- One chunk's characters are their own last chunk. -/
theorem splitsInto_encodeChunk {c : List Byte} (h0 : 0 < c.length) (h3 : c.length ≤ 3) :
    SplitsInto (encodeChunk c) c := by
  obtain ⟨k, hk, _, _, lengths⟩ := charsNeeded_cases h0 h3
  have hlen : (encodeChunk c).length = k := by
    rw [encodeChunk_of_charsNeeded hk, List.length_map, chainDigits_length]
  refine ⟨k, ?_, hlen.ge, ?_⟩
  · rw [hlen]
    obtain ⟨_, rfl⟩ | ⟨_, rfl⟩ | ⟨_, rfl⟩ := lengths
    all_goals rfl
  · rw [textChunks_last hlen, decodeChunks_cons (decodeChunk_encodeChunk hk) rfl, List.append_nil]

/-- Five characters before a text are a chunk of their own (42_decoder.md R186). -/
theorem SplitsInto.chunk_append {e t out rest : List Byte} (h : SplitsInto t rest) (he : e.length = 5)
    (hout : decodeChunk e = some out) : SplitsInto (e ++ t) (out ++ rest) := by
  obtain ⟨last, hlast, hle, hchunks⟩ := h
  refine ⟨last, ?_, ?_, ?_⟩
  · rw [List.length_append, he, Nat.add_mod_left, hlast]
  · rw [List.length_append]
    omega
  · rw [textChunks_append he hle, decodeChunks_cons hout hchunks]

theorem splitsInto_encodeBytes {b : List Byte} (h0 : b ≠ []) : SplitsInto (encodeBytes b) b := by
  induction b using chunk_induction (n := 3) (by decide) with
  | nil => exact absurd rfl h0
  | short b _ h3 =>
    rw [encodeBytes_last h0 h3.le]
    exact splitsInto_encodeChunk (List.length_pos_iff.2 h0) h3.le
  | full c b hc ih =>
    rw [encodeBytes_append hc]
    by_cases hb : b = []
    · subst hb
      rw [encodeBytes_nil, List.append_nil, List.append_nil]
      exact splitsInto_encodeChunk (by omega) hc.le
    · have hk : charsNeeded c.length = some 5 := by rw [hc]; rfl
      refine (ih hb).chunk_append ?_ (decodeChunk_encodeChunk hk)
      rw [encodeChunk_of_charsNeeded hk, List.length_map, chainDigits_length]

theorem decodeText_of_splitsInto {t out : List Byte} (valid : allValid t) (h0 : t ≠ []) (h : SplitsInto t out)
    (strip : Bool) : decodeText strip t = .ok out := by
  obtain ⟨last, hlast, _, hchunks⟩ := h
  have clean : t.drop (prefixOffset strip t) = t := by rw [prefixOffset_of_valid valid, List.drop_zero]
  rw [decodeText_of_valid (by rwa [clean]) (by rwa [clean]), clean, hlast]
  simp only [hchunks]

/-- The decoder inverts the encoder, whether it strips or not (42_decoder.md R194). -/
theorem decodeText_encodeBytes (b : List Byte) (strip : Bool) : decodeText strip (encodeBytes b) = .ok b := by
  by_cases h0 : b = []
  · subst h0
    cases strip <;> rfl
  · have hlen : 0 < (encodeBytes b).length := by
      rw [length_encodeBytes]
      exact Nat.lt_of_lt_of_le (List.length_pos_iff.2 h0) (le_encLen _)
    exact decodeText_of_splitsInto (allValid_encodeBytes b) (List.length_pos_iff.1 hlen) (splitsInto_encodeBytes h0) strip

/-- A text that is not the encoding of what it decodes to is no encoding at all. -/
theorem encodeBytes_ne_of_decodeText {strip : Bool} {t out : List Byte} (h : decodeText strip t = .ok out)
    (hne : encodeBytes out ≠ t) (b : List Byte) : encodeBytes b ≠ t := by
  rintro rfl
  obtain rfl : b = out := CommandResult.ok.inj ((decodeText_encodeBytes b strip).symm.trans h)
  exact hne rfl

/-- Settles O11: the decoder is a left inverse; and the over-range text `..` decodes as the text `B4` does, to `A3`. -/
theorem encodeIsInjectiveNotOnto : Obligations.EncodeIsInjectiveNotOnto := by
  refine ⟨fun b c h => ?_, fun strip => ?_⟩
  · have same := decodeText_encodeBytes b true
    rw [h, decodeText_encodeBytes c true] at same
    exact (CommandResult.ok.inj same).symm
  · have dots : decodeText strip [0x2E#8, 0x2E#8] = .ok [0xA3#8] := by cases strip <;> decide
    have other : encodeBytes [0xA3#8] ≠ [0x2E#8, 0x2E#8] := by decide
    exact ⟨[0x2E#8, 0x2E#8], encodeBytes [0xA3#8], [0xA3#8], by decide, other.symm, dots,
      decodeText_encodeBytes _ strip, rfl, encodeBytes_ne_of_decodeText dots other⟩

end Sys2Proof.Machine
end

section
/-! `ENC` as the host issues it: a launching command from its issue to its named completion (41_encoder.md R150,
40_commands.md R127, R128). -/

namespace Sys2Proof.Machine

/-- A launch keeps everything a completion is compared with (40_commands.md R127). -/
theorem Block.published_launch_iff {b c : Block} {w : Word} {r : CommandResult} :
    (b.launch w).Published r c ↔ b.Published r c := Iff.rfl

/-- A launching command issued to an idle block, and the completion named next: the launch, and its result published
against the block the command was issued to. -/
theorem exec_launching_completion {i : Instr} (hi : i.commandClass = .launching) {s : State} {rest : List AgentStep}
    (idle : s.block.busy = false) (legal : Config.legalIbufSize s.block.ibufSize)
    (hp : s.pending = .engineCompletion :: rest) :
    ∃ t u, exec i s = .next t ∧ t.block.busy = true ∧ t.block.done = false ∧ t.block.err = false ∧
      step t = .next u ∧ u.pending = rest ∧ u.replies = s.replies ∧ u.block.cmd = encode i ∧
      s.block.Published (commandResult (s.block.launch (encode i))) u.block := by
  have launched := exec_of_idle idle i
  rw [Block.accepted_of_launching _ hi] at launched
  have completed := step_completion (s := s.withBlock (s.block.launch (encode i))) rfl hp
  have fits : (commandResult (s.block.launch (encode i))).FitsRegister := commandResult_fitsRegister legal
  have published := Block.publish_published (s.block.launch_noOutcome (encode i)) fits
  exact ⟨_, _, launched, rfl, rfl, rfl, completed, rfl, rfl, Block.publish_cmd _ _,
    Block.published_launch_iff.1 published⟩

/-- A command on its operand, by the two sides of `IBUF_SIZE` (40_commands.md R129). -/
theorem Block.onInput_eq_ite (b : Block) (f : List Byte → CommandResult) :
    b.onInput f = if b.ilen.toNat ≤ b.ibufSize then f b.input else .err .inputOverrun 0 0 := by
  split_ifs with h
  · exact b.onInput_of_le h f
  · exact b.onInput_of_lt (Nat.lt_of_not_le h) f

/-- Settles O25: the word 1 is the encoder's, and a launch leaves the operand as it was. -/
theorem encEndsWithTheEncoding : Obligations.EncEndsWithTheEncoding := by
  intro s rest idle legal hp
  have run := exec_launching_completion (i := .enc) rfl idle legal hp
  rw [commandResult_of_enc rfl, Block.onInput_eq_ite] at run
  exact run

end Sys2Proof.Machine
end

section
/-! The encoder's micro-sequence: each round writes one chunk's characters behind the ones written, so that the loop leaves
the encoding of what it has read (41_encoder.md R162). -/

namespace Sys2Proof.Machine

theorem Memory.storeFrom_append (m : Memory) (i : Nat) (xs ys : List Byte) :
    m.storeFrom i (xs ++ ys) = (m.storeFrom i xs).storeFrom (i + xs.length) ys := by
  induction xs generalizing m i with
  | nil => rfl
  | cons x xs ih =>
    rw [List.cons_append, Memory.storeFrom, Memory.storeFrom, ih, List.length_cons, Nat.add_right_comm, Nat.add_assoc]

/-- From `w` to `e` the engine writes the symbols `out` behind `WP`, and nothing else into `OBUF`. -/
structure Working.Emits (w : Working) (out : List Byte) (e : Working) : Prop where
  obuf : e.obuf = w.obuf.storeFrom w.regs.wp out
  wp : e.regs.wp = w.regs.wp + out.length

theorem Working.Emits.refl (w : Working) : w.Emits [] w := ⟨rfl, rfl⟩

theorem Working.Emits.append {w e f : Working} {xs ys : List Byte} (h : w.Emits xs e) (h' : e.Emits ys f) :
    w.Emits (xs ++ ys) f where
  obuf := by rw [h'.obuf, h.obuf, h.wp, Memory.storeFrom_append]
  wp := by rw [h'.wp, h.wp, List.length_append, Nat.add_assoc]

theorem Working.emits_emit (w : Working) (v : Byte) : w.Emits [v] (w.emit v) := ⟨rfl, rfl⟩

/-- The entries of `OBUF` after writing from index 0 on. -/
theorem Working.Emits.cell? {w e : Working} {out : List Byte} (h : w.Emits out e) (h0 : w.regs.wp = 0) (j : Nat) :
    e.obuf.cell? j = if h : j < out.length then some out[j] else w.obuf.cell? j := by
  rw [h.obuf, h0, Memory.cell?_storeFrom]
  by_cases hj : j < out.length <;> simp [hj]

/-- The chain stages write the digits of `VAL` (41_encoder.md R154, R156). -/
theorem encStages_emits (k : Nat) (w : Working) :
    w.Emits ((chainDigits k w.regs.val.toNat).map a38) (encStages k w) := by
  induction k generalizing w with
  | zero => exact .refl w
  | succ k ih =>
    have rest := ih { w.emit (a38 (Fin.ofNat 38 w.regs.val.toNat)) with
      regs := { (w.emit (a38 (Fin.ofNat 38 w.regs.val.toNat))).regs with val := w.regs.val / 38#24 } }
    exact (w.emits_emit _).append ⟨rest.obuf, rest.wp⟩

theorem encStages_rp (k : Nat) (w : Working) : (encStages k w).regs.rp = w.regs.rp := by
  induction k generalizing w with
  | zero => rfl
  | succ k ih => exact ih _

/-- The symbols from index `rp` on. -/
def symbolsFrom (buf : Nat → Byte) (rp count : Nat) : List Byte := firstSymbols (fun k => buf (rp + k)) count

@[simp] theorem symbolsFrom_length (buf : Nat → Byte) (rp count : Nat) : (symbolsFrom buf rp count).length = count :=
  firstSymbols_length _ _

theorem symbolsFrom_zero_left (buf : Nat → Byte) (count : Nat) : symbolsFrom buf 0 count = firstSymbols buf count := by
  simp only [symbolsFrom, Nat.zero_add]

theorem symbolsFrom_add (buf : Nat → Byte) (rp m n : Nat) :
    symbolsFrom buf rp (m + n) = symbolsFrom buf rp m ++ symbolsFrom buf (rp + m) n := by
  simp only [symbolsFrom, firstSymbols, List.range_add, List.map_append, List.map_map, Function.comp_def, Nat.add_assoc]

/-- A symbol shifted by at most 16 keeps all its bits in a word of 24. -/
theorem toNat_setWidth_shiftLeft (v : Byte) {k : Nat} (hk : k ≤ 16) :
    (v.setWidth 24 <<< k).toNat = v.toNat <<< k := by
  have fits : v.toNat * 2 ^ k < 2 ^ 8 * 2 ^ 16 :=
    Nat.mul_lt_mul_of_lt_of_le v.isLt (Nat.pow_le_pow_right (by decide) hk) (by decide)
  rw [BitVec.toNat_shiftLeft, BitVec.toNat_setWidth_of_le (by decide), Nat.shiftLeft_eq]
  exact Nat.mod_eq_of_lt fits

/-- A number below a shifted one is joined to it by addition. -/
theorem or_shiftLeft_eq_add {x k : Nat} (h : x < 2 ^ k) (y : Nat) : x ||| y <<< k = x + y <<< k := by
  rw [Nat.lor_comm, ← Nat.shiftLeft_add_eq_or_of_lt h, Nat.add_comm]

/-- Symbols side by side in a word of 24 bits are added up. -/
theorem toNat_or_shiftLeft (x y z : Byte) :
    (x.setWidth 24 ||| y.setWidth 24 <<< 8 ||| z.setWidth 24 <<< 16 : BitVec 24).toNat =
      x.toNat + 256 * (y.toNat + 256 * z.toNat) := by
  have low : x.toNat + y.toNat <<< 8 < 2 ^ 16 := by
    rw [Nat.shiftLeft_eq]
    omega
  rw [BitVec.toNat_or, BitVec.toNat_or, BitVec.toNat_setWidth_of_le (by decide),
    toNat_setWidth_shiftLeft y (by decide), toNat_setWidth_shiftLeft z (by decide), or_shiftLeft_eq_add x.isLt,
    or_shiftLeft_eq_add low, Nat.shiftLeft_eq, Nat.shiftLeft_eq]
  ring

/-- The bytes a short chunk has not are taken as 0 (41_encoder.md R162). -/
theorem assembleChunk_eq (buf : Nat → Byte) (rp cl : Nat) :
    assembleChunk buf rp cl = (buf rp).setWidth 24 ||| (if 2 ≤ cl then buf (rp + 1) else 0).setWidth 24 <<< 8 |||
      (if cl = 3 then buf (rp + 2) else 0).setWidth 24 <<< 16 := by
  unfold assembleChunk
  split_ifs <;> rfl

/-- The chunk assembler gives the chunk's little-endian value (41_encoder.md R152). -/
theorem assembleChunk_toNat (buf : Nat → Byte) (rp : Nat) {cl : Nat} (h0 : 0 < cl) (h3 : cl ≤ 3) :
    (assembleChunk buf rp cl).toNat = leValue (symbolsFrom buf rp cl) := by
  rw [assembleChunk_eq, toNat_or_shiftLeft]
  obtain rfl | rfl | rfl : cl = 1 ∨ cl = 2 ∨ cl = 3 := by omega
  all_goals rfl

/-- One round of the loop of 41_encoder.md R162, on a chunk of `cl` bytes. -/
def encRound (buf : Nat → Byte) (cl : Nat) (w : Working) : Working :=
  let chunk := { w.regs with cl := BitVec.ofNat 3 cl, val := assembleChunk buf w.regs.rp cl }
  let e := encStages ((charsNeeded cl).getD 0) { w with regs := chunk }
  { e with regs := { e.regs with rp := e.regs.rp + cl } }

theorem encChunkLoop_of_le {buf : Nat → Byte} {ilen : Nat} {w : Working} (h : ilen ≤ w.regs.rp) (fuel : Nat) :
    encChunkLoop buf ilen fuel w = w := by
  cases fuel with
  | zero => rfl
  | succ fuel => exact if_neg (Nat.not_lt.2 h)

theorem encChunkLoop_of_lt {buf : Nat → Byte} {ilen : Nat} {w : Working} (h : w.regs.rp < ilen) (fuel : Nat) :
    encChunkLoop buf ilen (fuel + 1) w =
      encChunkLoop buf ilen fuel (encRound buf (min 3 (ilen - w.regs.rp)) w) :=
  if_pos h

theorem encRound_rp (buf : Nat → Byte) (cl : Nat) (w : Working) : (encRound buf cl w).regs.rp = w.regs.rp + cl := by
  simp only [encRound, encStages_rp]

theorem encRound_emits (buf : Nat → Byte) {cl : Nat} (h0 : 0 < cl) (h3 : cl ≤ 3) (w : Working) :
    w.Emits (encodeChunk (symbolsFrom buf w.regs.rp cl)) (encRound buf cl w) := by
  obtain ⟨k, hk, _⟩ := charsNeeded_cases h0 h3
  have stages := encStages_emits k
    { w with regs := { w.regs with cl := BitVec.ofNat 3 cl, val := assembleChunk buf w.regs.rp cl } }
  rw [assembleChunk_toNat buf w.regs.rp h0 h3, ← encodeChunk_of_charsNeeded (by rwa [symbolsFrom_length])] at stages
  rw [encRound, hk]
  exact ⟨stages.obuf, stages.wp⟩

/-- The chunk in hand, and what follows it: nothing, unless the chunk is full (41_encoder.md R151). -/
theorem encodeBytes_chunk_append {c rest : List Byte} (h0 : c ≠ []) (h : c.length = 3 ∨ c.length < 3 ∧ rest = []) :
    encodeBytes (c ++ rest) = encodeChunk c ++ encodeBytes rest := by
  obtain hc | ⟨hc, rfl⟩ := h
  · exact encodeBytes_append hc rest
  · rw [List.append_nil, encodeBytes_last h0 hc.le, encodeBytes_nil, List.append_nil]

/-- The symbols left are the chunk the loop takes next and the ones after it. -/
theorem encodeBytes_symbolsFrom (buf : Nat → Byte) (rp : Nat) {n : Nat} (h : 0 < n) :
    encodeBytes (symbolsFrom buf rp n) =
      encodeChunk (symbolsFrom buf rp (min 3 n)) ++ encodeBytes (symbolsFrom buf (rp + min 3 n) (n - min 3 n)) := by
  rw [← encodeBytes_chunk_append, ← symbolsFrom_add, Nat.add_sub_cancel' (Nat.min_le_right 3 n)]
  · exact List.length_pos_iff.1 (by rw [symbolsFrom_length]; omega)
  · rw [symbolsFrom_length, ← List.length_eq_zero_iff, symbolsFrom_length]
    omega

theorem encChunkLoop_emits_of_le (buf : Nat → Byte) {ilen : Nat} {w : Working} (h : ilen ≤ w.regs.rp) (fuel : Nat) :
    w.Emits (encodeBytes (symbolsFrom buf w.regs.rp (ilen - w.regs.rp))) (encChunkLoop buf ilen fuel w) := by
  have none_left : symbolsFrom buf w.regs.rp 0 = [] := rfl
  rw [encChunkLoop_of_le h, Nat.sub_eq_zero_of_le h, none_left, encodeBytes_nil]
  exact .refl w

/-- The loop writes the encoding of the symbols it has not read, one chunk a round. -/
theorem encChunkLoop_emits (buf : Nat → Byte) (ilen : Nat) {fuel : Nat} {w : Working} (enough : ilen - w.regs.rp ≤ fuel) :
    w.Emits (encodeBytes (symbolsFrom buf w.regs.rp (ilen - w.regs.rp))) (encChunkLoop buf ilen fuel w) := by
  induction fuel generalizing w with
  | zero =>
    have done : ilen ≤ w.regs.rp := Nat.sub_eq_zero_iff_le.1 (Nat.le_zero.1 enough)
    exact encChunkLoop_emits_of_le buf done 0
  | succ fuel ih =>
    rcases Nat.lt_or_ge w.regs.rp ilen with more | done
    · have rest := ih (w := encRound buf (min 3 (ilen - w.regs.rp)) w) (by rw [encRound_rp]; omega)
      rw [encRound_rp, ← Nat.sub_sub] at rest
      rw [encChunkLoop_of_lt more, encodeBytes_symbolsFrom buf w.regs.rp (Nat.sub_pos_of_lt more)]
      exact (encRound_emits buf (by omega) (by omega) w).append rest
    · exact encChunkLoop_emits_of_le buf done (fuel + 1)

theorem encMicro_emits (buf : Nat → Byte) (ilen : Nat) (w : Working) :
    Working.Emits { w with regs := { w.regs with rp := 0, wp := 0 } } (encodeBytes (firstSymbols buf ilen))
      (encMicro buf ilen w) := by
  have loop := encChunkLoop_emits buf ilen (w := { w with regs := { w.regs with rp := 0, wp := 0 } })
    (Nat.sub_le ilen 0)
  rwa [Nat.sub_zero, symbolsFrom_zero_left] at loop

/-- Settles O51: the sequence starts at index 0 of both buffers, whatever the registers held. -/
theorem encoderMicroSequenceComputesEncode : Obligations.EncoderMicroSequenceComputesEncode := by
  intro buf ilen w
  have emits := encMicro_emits buf ilen w
  exact ⟨emits.wp.trans (Nat.zero_add _), emits.cell? rfl⟩

end Sys2Proof.Machine
end

section
/-! The decoder as a function of the text: valid text of a legal length is decoded chunk by chunk, and each of the two
errors is the failure of one of the two tests (42_decoder.md R183 to R194, R198). -/

namespace Sys2Proof.Machine

theorem chunkValue_lt (e : List Byte) : chunkValue e < 38 ^ e.length := by
  rw [chunkValue_eq_ofDigits, ← List.length_map (as := e) digitValue]
  refine Nat.ofDigits_lt_base_pow_length (by decide) fun x hx => ?_
  obtain ⟨c, _, rfl⟩ := List.mem_map.1 hx
  exact digitValue_lt c

/-- Settles O18: both forms are the number the digits write to the base 38. -/
theorem accumulatorIsTheWeightedSum : Obligations.AccumulatorIsTheWeightedSum := by
  refine fun e => ⟨?_, chunkValue_lt e⟩
  rw [sum_zipIdx_pow_eq_ofDigits 38 digitValue, chunkValue_eq_ofDigits]

/-- Settles O12: each chunk's characters hold the chunk's whole value. -/
theorem decodeInvertsEncode : Obligations.DecodeInvertsEncode :=
  decodeText_encodeBytes

/-- The lengths of a chunk that the length checker lets through (42_decoder.md R185, R190). -/
theorem exists_bytesFor_of_legal {n : Nat} (h0 : 0 < n) (h5 : n ≤ 5) (legal : legalTextLength n) :
    ∃ k, bytesFor n = some k := by
  obtain rfl | rfl | rfl : n = 2 ∨ n = 4 ∨ n = 5 := by omega
  all_goals exact ⟨_, rfl⟩

theorem lastChunkLength_of_bytesFor {n k : Nat} (h : bytesFor n = some k) : lastChunkLength (n % 5) = some n := by
  obtain ⟨_, rfl⟩ | ⟨_, rfl⟩ | ⟨_, rfl⟩ := bytesFor_eq_some_iff.1 h
  all_goals rfl

theorem lastChunkLength_le {n last : Nat} (h0 : 0 < n) (h : lastChunkLength (n % 5) = some last) : last ≤ n := by
  unfold lastChunkLength at h
  split_ifs at h
  all_goals cases h; omega

theorem lastChunkLength_of_not_legal {n : Nat} (h : ¬legalTextLength n) : lastChunkLength (n % 5) = none := by
  obtain h1 | h3 : n % 5 = 1 ∨ n % 5 = 3 := by omega
  · rw [h1]; rfl
  · rw [h3]; rfl

theorem decLen_of_bytesFor {n k : Nat} (h : bytesFor n = some k) : Config.decLen n = k := by
  obtain ⟨rfl, rfl⟩ | ⟨rfl, rfl⟩ | ⟨rfl, rfl⟩ := bytesFor_eq_some_iff.1 h
  all_goals rfl

theorem decLen_five_add (n : Nat) : Config.decLen (5 + n) = 3 + Config.decLen n := by
  rw [Config.decLen, Config.decLen, Nat.add_mod_left, Nat.add_div_left n (by decide)]
  ring

/-- Any decoding is a plain one of the cleaned input, its position larger by the offset (42_decoder.md R182). -/
theorem decodeText_eq_shiftPosition (strip : Bool) (s : List Byte) :
    decodeText strip s = shiftPosition (prefixOffset strip s) (decodeText false (cleaned strip s)) :=
  decodeText_of_offset_add (Nat.zero_add _).symm rfl

/-- A successful plain decoding has been cut at the length checker's last chunk. -/
theorem splitsInto_of_decodeText {t out : List Byte} (h0 : t ≠ []) (h : decodeText false t = .ok out) :
    SplitsInto t out := by
  have hlen : 0 < t.length := List.length_pos_iff.2 h0
  have clean : t.drop (prefixOffset false t) = t := rfl
  simp only [decodeText, clean] at h
  split at h
  · cases h
  · rw [if_neg (Nat.ne_of_gt hlen)] at h
    split at h
    · cases h
    · rename_i last hlast
      split at h
      · rename_i hchunks
        cases h
        exact ⟨last, hlast, lastChunkLength_le hlen hlast, hchunks⟩
      · cases h

theorem decodeText_false_nil : decodeText false [] = .ok [] := rfl

/-- A result that names no character has passed the validation scan (42_decoder.md R183). -/
theorem allValid_cleaned_of_ne {strip : Bool} {s : List Byte}
    (h : ∀ c i, decodeText strip s ≠ .err .invalidCharacter c i) : allValid (cleaned strip s) := by
  cases hf : firstInvalid (prefixOffset strip s) (cleaned strip s) with
  | none => exact firstInvalid_eq_none.1 hf
  | some p => exact absurd (decodeText_of_firstInvalid hf) (h _ _)

theorem allValid_of_decodeText_ok {strip : Bool} {s out : List Byte} (h : decodeText strip s = .ok out) :
    allValid (cleaned strip s) :=
  allValid_cleaned_of_ne fun c i => by simp [h]

/-- A text of one chunk (42_decoder.md R191). -/
theorem decodeText_of_bytesFor {e : List Byte} {n : Nat} (valid : allValid e) (hn : bytesFor e.length = some n)
    (strip : Bool) : decodeText strip e = .ok (emitBytes n (chunkValue e)) := by
  have h0 : e ≠ [] := by
    rintro rfl
    cases hn
  refine decodeText_of_splitsInto valid h0 ⟨e.length, lastChunkLength_of_bytesFor hn, Nat.le_refl _, ?_⟩ strip
  rw [textChunks_last rfl, decodeChunks_cons (decodeChunk_of_bytesFor hn) rfl, List.append_nil]

/-- Settles O19: the emitted bytes are the low ones of the value. -/
theorem overRangeChunksAreTruncated : Obligations.OverRangeChunksAreTruncated :=
  fun strip _ _ valid hn =>
    ⟨_, decodeText_of_bytesFor valid hn strip, emitBytes_length _ _, leValue_emitBytes _ _⟩

/-- `e` is the first chunk of `e ++ t`: it is full, or a shorter last one (42_decoder.md R186). -/
def FirstChunk (e t : List Byte) : Prop := 0 < e.length ∧ (e.length = 5 ∨ e.length < 5 ∧ t = [])

theorem firstChunk_of_length_eq {e : List Byte} (h : e.length = 5) (t : List Byte) : FirstChunk e t :=
  ⟨by omega, .inl h⟩

theorem firstChunk_nil {e : List Byte} (h0 : e ≠ []) (h : e.length < 5) : FirstChunk e [] :=
  ⟨List.length_pos_iff.2 h0, .inr ⟨h, rfl⟩⟩

/-- The first chunk's bytes stand before those of the rest (42_decoder.md R192). -/
theorem decodeText_chunk_append {e t out : List Byte} {n : Nat} (first : FirstChunk e t) (valid : allValid e)
    (hn : bytesFor e.length = some n) (ht : decodeText false t = .ok out) :
    decodeText false (e ++ t) = .ok (emitBytes n (chunkValue e) ++ out) := by
  by_cases h0 : t = []
  · subst h0
    cases decodeText_false_nil.symm.trans ht
    rw [List.append_nil, List.append_nil, decodeText_of_bytesFor valid hn]
  · obtain ⟨_, he | ⟨_, rfl⟩⟩ := first
    · have split := (splitsInto_of_decodeText h0 ht).chunk_append he (decodeChunk_of_bytesFor hn)
      exact decodeText_of_splitsInto (List.forall_mem_append.2 ⟨valid, allValid_of_decodeText_ok ht⟩)
        (List.append_ne_nil_of_right_ne_nil e h0) split false
    · exact absurd rfl h0

/-- Valid text of a legal length decodes, to the length law's number of bytes (42_decoder.md R198), by induction along
its chunks. -/
theorem exists_decodeText_false {t : List Byte} (valid : allValid t) (legal : legalTextLength t.length) :
    ∃ out, decodeText false t = .ok out ∧ out.length = Config.decLen t.length := by
  induction t using chunk_induction (n := 5) (by decide) with
  | nil => exact ⟨[], rfl, rfl⟩
  | short e h0 h5 =>
    obtain ⟨n, hn⟩ := exists_bytesFor_of_legal (List.length_pos_iff.2 h0) h5.le legal
    exact ⟨_, decodeText_of_bytesFor valid hn false, by rw [emitBytes_length, decLen_of_bytesFor hn]⟩
  | full e t he ih =>
    obtain ⟨valid_e, valid_t⟩ := List.forall_mem_append.1 valid
    rw [List.length_append, he, legalTextLength, Nat.add_mod_left] at legal
    obtain ⟨out, hout, hlen⟩ := ih valid_t legal
    have hn : bytesFor e.length = some 3 := by rw [he]; rfl
    refine ⟨_, decodeText_chunk_append (firstChunk_of_length_eq he t) valid_e hn hout, ?_⟩
    rw [List.length_append, emitBytes_length, hlen, List.length_append, he, decLen_five_add]

theorem exists_decodeText {strip : Bool} {s : List Byte} (valid : allValid (cleaned strip s))
    (legal : legalTextLength (cleaned strip s).length) :
    ∃ out, decodeText strip s = .ok out ∧ decodeText false (cleaned strip s) = .ok out ∧
      out.length = Config.decLen (cleaned strip s).length := by
  obtain ⟨out, hout, hlen⟩ := exists_decodeText_false valid legal
  exact ⟨out, by rw [decodeText_eq_shiftPosition, hout]; rfl, hout, hlen⟩

/-- The length checker refuses a valid text (42_decoder.md R185). -/
theorem decodeText_of_not_legal {strip : Bool} {s : List Byte} (valid : allValid (cleaned strip s))
    (h : ¬legalTextLength (cleaned strip s).length) :
    decodeText strip s = .err .invalidLength 0 (cleaned strip s).length := by
  have h0 : cleaned strip s ≠ [] := fun h0 => h (.inl (by rw [h0]; rfl))
  have none_last := lastChunkLength_of_not_legal h
  unfold cleaned at valid h0 none_last ⊢
  rw [decodeText_of_valid valid h0, none_last]

theorem not_legalTextLength_iff {n : Nat} : ¬legalTextLength n ↔ n % 5 = 1 ∨ n % 5 = 3 := by
  omega

theorem decodeText_eq_invalidCharacter_iff {strip : Bool} {s : List Byte} {c : Byte} {i : Nat} :
    decodeText strip s = .err .invalidCharacter c i ↔
      firstInvalid (prefixOffset strip s) (cleaned strip s) = some (c, i) := by
  refine ⟨fun h => ?_, decodeText_of_firstInvalid⟩
  obtain ⟨_, hf⟩ | ⟨hcode, _⟩ := decodeText_err_cases h
  · exact hf
  · cases hcode

/-- Settles O14: the scan reports the lowest index past the offset. -/
theorem invalidCharacterIsTheFirstOffender : Obligations.InvalidCharacterIsTheFirstOffender := by
  intro strip s c i
  simp only [decodeText_eq_invalidCharacter_iff, firstInvalid_eq_some, cleaned, List.getElem?_drop]
  refine and_congr_right fun hi => ?_
  rw [Nat.add_sub_cancel' hi]
  refine and_congr_right fun _ => and_congr_right fun _ => ⟨fun h k d hk hki hd => ?_, fun h j d hj hd => ?_⟩
  · exact h (k - prefixOffset strip s) d (by omega) (by rwa [Nat.add_sub_cancel' hk])
  · exact h (prefixOffset strip s + j) d (by omega) (by omega) hd

/-- Settles O15: past the scan only a length that the checker refuses is an error, since every other text decodes. -/
theorem invalidLengthIsTheCleanedCount : Obligations.InvalidLengthIsTheCleanedCount := by
  intro strip s c n
  constructor
  · intro h
    have valid : allValid (cleaned strip s) := allValid_cleaned_of_ne fun c i => by simp [h]
    obtain ⟨hcode, _⟩ | ⟨_, rfl, rfl⟩ := decodeText_err_cases h
    · cases hcode
    · refine ⟨rfl, rfl, valid, not_legalTextLength_iff.1 fun legal => ?_⟩
      obtain ⟨out, hout, _⟩ := exists_decodeText valid legal
      cases h.symm.trans hout
  · rintro ⟨rfl, rfl, valid, hbad⟩
    exact decodeText_of_not_legal valid (not_legalTextLength_iff.2 hbad)

theorem legal_of_decodeText_ok {strip : Bool} {s out : List Byte} (h : decodeText strip s = .ok out) :
    legalTextLength (cleaned strip s).length := by
  by_contra hbad
  cases h.symm.trans (decodeText_of_not_legal (allValid_of_decodeText_ok h) hbad)

theorem length_of_decodeText_ok {strip : Bool} {s out : List Byte} (h : decodeText strip s = .ok out) :
    out.length = Config.decLen (cleaned strip s).length := by
  obtain ⟨out', hout', _, hlen⟩ := exists_decodeText (allValid_of_decodeText_ok h) (legal_of_decodeText_ok h)
  cases h.symm.trans hout'
  exact hlen

/-- Settles O16: a text that passes the scan and the length checker decodes, and no other does. -/
theorem decodeSucceedsExactlyOnValidText : Obligations.DecodeSucceedsExactlyOnValidText := by
  refine fun strip s => ⟨⟨?_, ?_⟩, fun out h => ?_⟩
  · rintro ⟨out, h⟩
    exact ⟨allValid_of_decodeText_ok h, legal_of_decodeText_ok h⟩
  · rintro ⟨valid, legal⟩
    obtain ⟨out, h, _⟩ := exists_decodeText valid legal
    exact ⟨out, h⟩
  · exact ⟨length_of_decodeText_ok h, length_of_decodeText_ok h⟩

/-- A text that decodes is its first chunk's bytes before what the rest decodes to. -/
theorem decodeText_chunk_append_inv {e t out : List Byte} (first : FirstChunk e t)
    (h : decodeText false (e ++ t) = .ok out) :
    allValid e ∧ ∃ n rest, bytesFor e.length = some n ∧ decodeText false t = .ok rest ∧
      out = emitBytes n (chunkValue e) ++ rest := by
  obtain ⟨valid_e, valid_t⟩ := List.forall_mem_append.1 (allValid_of_decodeText_ok h)
  have legal : legalTextLength (e ++ t).length := legal_of_decodeText_ok h
  rw [List.length_append] at legal
  have lengths : legalTextLength e.length ∧ e.length ≤ 5 ∧ legalTextLength t.length := by
    obtain ⟨_, he | ⟨he, rfl⟩⟩ := first
    · omega
    · rw [List.length_nil] at legal ⊢
      omega
  obtain ⟨legal_e, he, legal_t⟩ := lengths
  have h0 : 0 < e.length := first.1
  obtain ⟨n, hn⟩ := exists_bytesFor_of_legal h0 he legal_e
  obtain ⟨rest, hrest, _⟩ := exists_decodeText_false valid_t legal_t
  have joined := decodeText_chunk_append first valid_e hn hrest
  cases h.symm.trans joined
  exact ⟨valid_e, n, rest, hn, hrest, rfl⟩

/-- Settles O17, by induction along the full chunks of the first text. -/
theorem textChunksDecodeIndependently : Obligations.TextChunksDecodeIndependently := by
  intro t rest out outRest ht hout hrest
  induction t using chunk_induction (n := 5) (by decide) generalizing out with
  | nil =>
    cases decodeText_false_nil.symm.trans hout
    exact hrest
  | short e h0 h5 => exact absurd (List.length_pos_iff.2 h0) (by omega)
  | full e t he ih =>
    have ht' : t.length % 5 = 0 := by rwa [List.length_append, he, Nat.add_mod_left] at ht
    obtain ⟨valid, n, out', hn, hout', rfl⟩ := decodeText_chunk_append_inv (firstChunk_of_length_eq he t) hout
    rw [List.append_assoc, List.append_assoc]
    exact decodeText_chunk_append (firstChunk_of_length_eq he _) valid hn (ih out' ht' hout')

end Sys2Proof.Machine
end

section
/-! `DEC` and `DECN` as the host issues them: launching commands from their issue to their named completion
(42_decoder.md R180, R181, 40_commands.md R127, R128). -/

namespace Sys2Proof.Machine

/-- Settles O26: the word 2 is the decoder's that strips `MT:`, and a launch leaves the operand as it was. -/
theorem decEndsWithTheDecoding : Obligations.DecEndsWithTheDecoding := by
  intro s rest idle legal hp
  have run := exec_launching_completion (i := .dec) rfl idle legal hp
  rw [commandResult_of_dec rfl, Block.onInput_eq_ite] at run
  exact run

/-- Settles O27: the word 3 is the decoder's that strips nothing. -/
theorem decnEndsWithThePlainDecoding : Obligations.DecnEndsWithThePlainDecoding := by
  intro s rest idle legal hp
  have run := exec_launching_completion (i := .decn) rfl idle legal hp
  rw [commandResult_of_decn rfl, Block.onInput_eq_ite] at run
  exact run

end Sys2Proof.Machine
end

section
/-! The decoder's two-pass micro-sequence: its first pass is the validation scan, and each round of the second writes
one chunk's bytes behind the ones written, so that the loop leaves the decoding of what it has read
(42_decoder.md R199). -/

namespace Sys2Proof.Machine

theorem symbolsFrom_succ (buf : Nat → Byte) (rp n : Nat) :
    symbolsFrom buf rp (n + 1) = buf rp :: symbolsFrom buf (rp + 1) n := by
  rw [Nat.add_comm, symbolsFrom_add]
  rfl

theorem symbolsFrom_snoc (buf : Nat → Byte) (rp n : Nat) :
    symbolsFrom buf rp (n + 1) = symbolsFrom buf rp n ++ [buf (rp + n)] := symbolsFrom_add buf rp n 1

/-- The symbols of a buffer past the first `m`. -/
theorem firstSymbols_drop (buf : Nat → Byte) (m n : Nat) :
    (firstSymbols buf n).drop m = symbolsFrom buf m (n - m) := by
  apply List.ext_getElem
  · simp
  · intro i h1 h2
    simp [symbolsFrom]

theorem firstSymbols_take {buf : Nat → Byte} {m n : Nat} (h : m ≤ n) :
    (firstSymbols buf n).take m = firstSymbols buf m := by
  obtain ⟨k, rfl⟩ := Nat.exists_eq_add_of_le h
  rw [← symbolsFrom_zero_left buf (m + k), symbolsFrom_add, symbolsFrom_zero_left,
    List.take_left' (firstSymbols_length buf m)]

theorem firstSymbols_three_eq_pfx_iff {buf : Nat → Byte} :
    firstSymbols buf 3 = pfx ↔ buf 0 = 0x4D#8 ∧ buf 1 = 0x54#8 ∧ buf 2 = 0x3A#8 := by
  simp [firstSymbols, pfx, List.range_succ]

/-- The compare with `MT:` sets `OFF` to the stripper's offset (42_decoder.md R182). -/
theorem prefixCompare_toNat (strip : Bool) (buf : Nat → Byte) (ilen : Nat) :
    (prefixCompare strip buf ilen).toNat = prefixOffset strip (firstSymbols buf ilen) := by
  have same : (strip = true ∧ 3 ≤ ilen ∧ buf 0 = 0x4D#8 ∧ buf 1 = 0x54#8 ∧ buf 2 = 0x3A#8) ↔
      (strip = true ∧ 3 ≤ (firstSymbols buf ilen).length ∧ (firstSymbols buf ilen).take 3 = pfx) := by
    rw [firstSymbols_length]
    refine and_congr_right fun _ => and_congr_right fun h3 => ?_
    rw [firstSymbols_take h3, firstSymbols_three_eq_pfx_iff]
  simp only [prefixCompare, prefixOffset, same]
  split_ifs <;> rfl

/-- The first pass is the validation scan (42_decoder.md R183). -/
theorem firstInvalid_symbolsFrom (buf : Nat → Byte) (n rp : Nat) :
    firstInvalid rp (symbolsFrom buf rp n) = (validationPass buf n rp).map fun i => (buf i, i) := by
  induction n generalizing rp with
  | zero => rfl
  | succ n ih =>
    rw [symbolsFrom_succ, firstInvalid, validationPass, ih]
    split_ifs <;> rfl

/-- The loop over the chunk is the fold of 42_decoder.md R188, in the 27 bits of `ACC`. -/
theorem accumulate_ofNat (buf : Nat → Byte) (rp k a : Nat) :
    accumulate buf rp k (BitVec.ofNat 27 a) =
      BitVec.ofNat 27 ((symbolsFrom buf rp k).foldr (fun c acc => acc * 38 + digitValue c) a) := by
  induction k generalizing a with
  | zero => rfl
  | succ k ih =>
    have stage : BitVec.ofNat 27 a * 38#27 + (r38 (buf (rp + k))).val.setWidth 27 =
        BitVec.ofNat 27 (a * 38 + digitValue (buf (rp + k))) := by
      rw [BitVec.ofNat_add, BitVec.ofNat_mul, digitValue, BitVec.ofNat_toNat]
    rw [accumulate, stage, ih, symbolsFrom_snoc, List.foldr_append]
    rfl

/-- `ACC` holds the whole value of a chunk (42_decoder.md R189). -/
theorem accumulate_toNat (buf : Nat → Byte) (rp : Nat) {cl : Nat} (h5 : cl ≤ 5) :
    (accumulate buf rp cl 0).toNat = chunkValue (symbolsFrom buf rp cl) := by
  have bound : chunkValue (symbolsFrom buf rp cl) < 38 ^ 5 := by
    refine Nat.lt_of_lt_of_le (chunkValue_lt _) ?_
    rw [symbolsFrom_length]
    exact Nat.pow_le_pow_right (by decide) h5
  have fold : accumulate buf rp cl 0 = BitVec.ofNat 27 (chunkValue (symbolsFrom buf rp cl)) :=
    accumulate_ofNat buf rp cl 0
  rw [fold, BitVec.toNat_ofNat, Nat.mod_eq_of_lt (Nat.lt_trans bound (by decide))]

/-- The emitter writes the bytes of `ACC` from byte `k` on (42_decoder.md R191). -/
theorem emitLoop_emits (count k : Nat) (w : Working) :
    w.Emits (emitBytes count (w.regs.acc.toNat >>> (8 * k))) (emitLoop count k w) := by
  induction count generalizing k w with
  | zero => exact .refl w
  | succ count ih =>
    have byte : (w.regs.acc >>> (8 * k)).setWidth 8 = BitVec.ofNat 8 (w.regs.acc.toNat >>> (8 * k) % 256) := by
      apply BitVec.eq_of_toNat_eq
      simp
    have shifted : w.regs.acc.toNat >>> (8 * (k + 1)) = w.regs.acc.toNat >>> (8 * k) / 256 := by
      rw [Nat.mul_add, Nat.shiftRight_add, Nat.shiftRight_eq_div_pow _ (8 * 1)]
    rw [emitBytes_succ, ← byte, ← shifted]
    exact (w.emits_emit _).append (ih (k + 1) (w.emit _))

theorem emitLoop_rp (count k : Nat) (w : Working) : (emitLoop count k w).regs.rp = w.regs.rp := by
  induction count generalizing k w with
  | zero => rfl
  | succ count ih => exact ih _ _

/-- One round of the second pass of 42_decoder.md R199, on a chunk of `cl` characters. -/
def decRound (buf : Nat → Byte) (cl : Nat) (w : Working) : Working :=
  let chunk := { w.regs with cl := BitVec.ofNat 3 cl, acc := accumulate buf w.regs.rp cl 0 }
  let e := emitLoop ((bytesFor cl).getD 0) 0 { w with regs := chunk }
  { e with regs := { e.regs with rp := e.regs.rp + cl } }

theorem decChunkLoop_of_le {buf : Nat → Byte} {ilen : Nat} {w : Working} (h : ilen ≤ w.regs.rp) (fuel : Nat) :
    decChunkLoop buf ilen fuel w = w := by
  cases fuel with
  | zero => rfl
  | succ fuel => exact if_neg (Nat.not_lt.2 h)

theorem decChunkLoop_of_lt {buf : Nat → Byte} {ilen : Nat} {w : Working} (h : w.regs.rp < ilen) (fuel : Nat) :
    decChunkLoop buf ilen (fuel + 1) w =
      decChunkLoop buf ilen fuel (decRound buf (min 5 (ilen - w.regs.rp)) w) :=
  if_pos h

theorem decRound_rp (buf : Nat → Byte) (cl : Nat) (w : Working) : (decRound buf cl w).regs.rp = w.regs.rp + cl := by
  simp only [decRound, emitLoop_rp]

theorem decRound_emits (buf : Nat → Byte) {cl n : Nat} (h5 : cl ≤ 5) (hn : bytesFor cl = some n) (w : Working) :
    w.Emits (emitBytes n (chunkValue (symbolsFrom buf w.regs.rp cl))) (decRound buf cl w) := by
  have bytes := emitLoop_emits n 0
    { w with regs := { w.regs with cl := BitVec.ofNat 3 cl, acc := accumulate buf w.regs.rp cl 0 } }
  rw [Nat.mul_zero, Nat.shiftRight_zero, accumulate_toNat buf w.regs.rp h5] at bytes
  rw [decRound, hn]
  exact ⟨bytes.obuf, bytes.wp⟩

/-- The symbols left are the chunk the second pass takes next and the ones after it. -/
theorem symbolsFrom_eq_chunk_append (buf : Nat → Byte) (rp n : Nat) :
    symbolsFrom buf rp n = symbolsFrom buf rp (min 5 n) ++ symbolsFrom buf (rp + min 5 n) (n - min 5 n) := by
  rw [← symbolsFrom_add, Nat.add_sub_cancel' (Nat.min_le_right 5 n)]

theorem firstChunk_symbolsFrom (buf : Nat → Byte) (rp : Nat) {n : Nat} (h : 0 < n) :
    FirstChunk (symbolsFrom buf rp (min 5 n)) (symbolsFrom buf (rp + min 5 n) (n - min 5 n)) := by
  rw [FirstChunk, ← List.length_eq_zero_iff, symbolsFrom_length, symbolsFrom_length]
  omega

theorem decChunkLoop_emits_of_le {buf : Nat → Byte} {ilen : Nat} {w : Working} {out : List Byte}
    (h : ilen ≤ w.regs.rp) (hout : decodeText false (symbolsFrom buf w.regs.rp (ilen - w.regs.rp)) = .ok out)
    (fuel : Nat) : w.Emits out (decChunkLoop buf ilen fuel w) := by
  rw [Nat.sub_eq_zero_of_le h] at hout
  cases decodeText_false_nil.symm.trans hout
  rw [decChunkLoop_of_le h]
  exact .refl w

/-- The loop writes what the symbols it has not read decode to, one chunk a round. -/
theorem decChunkLoop_emits {buf : Nat → Byte} {ilen fuel : Nat} {w : Working} {out : List Byte}
    (enough : ilen - w.regs.rp ≤ fuel)
    (hout : decodeText false (symbolsFrom buf w.regs.rp (ilen - w.regs.rp)) = .ok out) :
    w.Emits out (decChunkLoop buf ilen fuel w) := by
  induction fuel generalizing w out with
  | zero => exact decChunkLoop_emits_of_le (Nat.sub_eq_zero_iff_le.1 (Nat.le_zero.1 enough)) hout 0
  | succ fuel ih =>
    rcases Nat.lt_or_ge w.regs.rp ilen with more | done
    · rw [symbolsFrom_eq_chunk_append] at hout
      obtain ⟨_, n, rest, hn, hrest, rfl⟩ :=
        decodeText_chunk_append_inv (firstChunk_symbolsFrom buf w.regs.rp (Nat.sub_pos_of_lt more)) hout
      rw [symbolsFrom_length] at hn
      have later := ih (w := decRound buf (min 5 (ilen - w.regs.rp)) w) (out := rest)
        (by rw [decRound_rp]; omega) (by rwa [decRound_rp, ← Nat.sub_sub])
      rw [decChunkLoop_of_lt more]
      exact (decRound_emits buf (Nat.min_le_left _ _) hn w).append later
    · exact decChunkLoop_emits_of_le done hout (fuel + 1)

/-- The count of symbols both passes run over: those from `OFF` on (42_decoder.md R199). -/
def cleanedCount (strip : Bool) (buf : Nat → Byte) (ilen : Nat) : Nat :=
  ilen - (prefixCompare strip buf ilen).toNat

/-- What the first pass of the sequence finds. -/
def firstPass (strip : Bool) (buf : Nat → Byte) (ilen : Nat) : Option Nat :=
  validationPass buf (cleanedCount strip buf ilen) (prefixCompare strip buf ilen).toNat

/-- The registers as the second pass finds them. -/
def decStart (strip : Bool) (buf : Nat → Byte) (ilen : Nat) (w : Working) : Working :=
  { w with regs := { w.regs with
    off := prefixCompare strip buf ilen, rp := (prefixCompare strip buf ilen).toNat, wp := 0 } }

/-- The cleaned input is what the passes read (42_decoder.md R182). -/
theorem cleaned_firstSymbols (strip : Bool) (buf : Nat → Byte) (ilen : Nat) :
    cleaned strip (firstSymbols buf ilen) =
      symbolsFrom buf (prefixCompare strip buf ilen).toNat (cleanedCount strip buf ilen) := by
  rw [cleaned, firstSymbols_drop, prefixCompare_toNat, cleanedCount, prefixCompare_toNat]

theorem length_cleaned_firstSymbols (strip : Bool) (buf : Nat → Byte) (ilen : Nat) :
    (cleaned strip (firstSymbols buf ilen)).length = cleanedCount strip buf ilen := by
  rw [cleaned_firstSymbols, symbolsFrom_length]

theorem firstInvalid_cleaned_firstSymbols (strip : Bool) (buf : Nat → Byte) (ilen : Nat) :
    firstInvalid (prefixOffset strip (firstSymbols buf ilen)) (cleaned strip (firstSymbols buf ilen)) =
      (firstPass strip buf ilen).map fun i => (buf i, i) := by
  rw [cleaned_firstSymbols, ← prefixCompare_toNat, firstInvalid_symbolsFrom, firstPass]

/-- A first pass that finds an offender fails with it. -/
theorem decMicro_of_firstPass {strip : Bool} {buf : Nat → Byte} {ilen i : Nat}
    (pass : firstPass strip buf ilen = some i) (w : Working) :
    (decMicro strip buf ilen w).2 = .failed .invalidCharacter (buf i) i ∧
      (decMicro strip buf ilen w).1.obuf = w.obuf := by
  unfold firstPass cleanedCount at pass
  simp only [decMicro, pass, and_self]

/-- The length test stands between the passes. -/
theorem decMicro_of_not_legal {strip : Bool} {buf : Nat → Byte} {ilen : Nat} (pass : firstPass strip buf ilen = none)
    (h : ¬legalTextLength (cleanedCount strip buf ilen)) (w : Working) :
    (decMicro strip buf ilen w).2 = .failed .invalidLength 0 (cleanedCount strip buf ilen) ∧
      (decMicro strip buf ilen w).1.obuf = w.obuf := by
  have h0 : cleanedCount strip buf ilen ≠ 0 := by omega
  have bad := not_legalTextLength_iff.1 h
  unfold cleanedCount at h0 bad
  unfold firstPass cleanedCount at pass
  simp only [decMicro, pass, if_neg h0, if_pos bad, cleanedCount, and_self]

/-- The second pass runs from `OFF` on; on no symbols it has no round. -/
theorem decMicro_of_legal {strip : Bool} {buf : Nat → Byte} {ilen : Nat} (pass : firstPass strip buf ilen = none)
    (h : legalTextLength (cleanedCount strip buf ilen)) (w : Working) :
    decMicro strip buf ilen w =
      (decChunkLoop buf ilen (cleanedCount strip buf ilen) (decStart strip buf ilen w), .published) := by
  have accepted : ¬(cleanedCount strip buf ilen % 5 = 1 ∨ cleanedCount strip buf ilen % 5 = 3) := by omega
  unfold firstPass at pass
  unfold cleanedCount at pass accepted ⊢
  by_cases h0 : ilen - (prefixCompare strip buf ilen).toNat = 0
  · rw [h0] at pass
    simp only [decMicro, h0, pass, if_true, decChunkLoop, decStart]
  · simp only [decMicro, pass, if_neg h0, if_neg accepted, decStart]

/-- A successful sequence writes the plain decoding of the cleaned input from index 0 on. -/
theorem decChunkLoop_decStart_emits {strip : Bool} {buf : Nat → Byte} {ilen : Nat} {out : List Byte}
    (hout : decodeText false (cleaned strip (firstSymbols buf ilen)) = .ok out) (w : Working) :
    (decStart strip buf ilen w).Emits out
      (decChunkLoop buf ilen (cleanedCount strip buf ilen) (decStart strip buf ilen w)) := by
  rw [cleaned_firstSymbols] at hout
  exact decChunkLoop_emits (Nat.le_refl _) hout

/-- Settles O52: the two passes make `decode`'s tests in its order, and write only once all have passed. -/
theorem decoderMicroSequenceComputesDecode : Obligations.DecoderMicroSequenceComputesDecode := by
  intro strip buf ilen w
  have scan := firstInvalid_cleaned_firstSymbols strip buf ilen
  have count := length_cleaned_firstSymbols strip buf ilen
  cases pass : firstPass strip buf ilen with
  | some i =>
    rw [pass] at scan
    rw [decodeText_of_firstInvalid scan]
    exact decMicro_of_firstPass pass w
  | none =>
    rw [pass] at scan
    have valid : allValid (cleaned strip (firstSymbols buf ilen)) := firstInvalid_eq_none.1 scan
    by_cases legal : legalTextLength (cleaned strip (firstSymbols buf ilen)).length
    · obtain ⟨out, hout, plain, _⟩ := exists_decodeText valid legal
      have emits := decChunkLoop_decStart_emits plain w
      rw [hout, decMicro_of_legal pass (count ▸ legal)]
      exact ⟨rfl, emits.wp.trans (Nat.zero_add _), emits.cell? rfl⟩
    · rw [decodeText_of_not_legal valid legal, count]
      exact decMicro_of_not_legal pass (count ▸ legal) w

end Sys2Proof.Machine
end

section
/-! The errors of a command: a reserved word from its issue to its named completion, and the order in which the causes of
an error are tested (60_exceptions.md R222 to R226). -/

namespace Sys2Proof.Machine

/-- A reserved word is neither `ENC` nor `DEC` nor `DECN` (60_exceptions.md R224). -/
theorem commandResult_of_isReservedWord {b : Block} (h : isReservedWord b.cmd = true) :
    commandResult b = .err .badCommand 0 0 := by
  rw [commandResult, decode_of_isReservedWord h]
  rfl

/-- Settles O28: a launch holds its word, and the two zeros recorded fit the registers whatever `IBUF_SIZE` is. -/
theorem reservedWordEndsWithBadCommand : Obligations.ReservedWordEndsWithBadCommand := by
  intro s w rest reserved idle hp
  have launched : exec (.reserved w) s = .next (s.withBlock (s.block.launch w)) := exec_of_idle idle (.reserved w)
  have completed := step_completion (s := s.withBlock (s.block.launch w)) rfl hp
  have result : commandResult (s.block.launch w) = .err .badCommand 0 0 := commandResult_of_isReservedWord reserved
  have fits : (CommandResult.err .badCommand 0 0).FitsRegister := Nat.two_pow_pos 32
  have published := Block.publish_published (s.block.launch_noOutcome w) fits
  rw [State.withBlock_block, result] at completed
  exact ⟨_, _, launched, rfl, rfl, rfl, completed, rfl, rfl, Block.publish_cmd _ _,
    Block.published_launch_iff.1 published⟩

/-- The word of the decoder that strips `MT:` is 2, of the other 3 (42_decoder.md R180, R181). -/
theorem commandResult_of_decoding {b : Block} {strip : Bool} (hw : b.cmd = if strip then 2 else 3)
    (fits : b.ilen.toNat ≤ b.ibufSize) : commandResult b = decodeText strip b.input := by
  cases strip with
  | false => rw [commandResult_of_decn hw, Block.onInput_of_le fits]
  | true => rw [commandResult_of_dec hw, Block.onInput_of_le fits]

theorem Block.input_getElem?_eq_some_iff {b : Block} {i : Nat} {c : Byte} :
    b.input[i]? = some c ↔ i < b.ilen.toNat ∧ b.ibufByte i = c := by
  simp [List.getElem?_eq_some_iff, Block.input, Block.inputLength]

/-- The cleaned input is valid when the entries of `IBUF` it is made of are (42_decoder.md R182). -/
theorem Block.allValid_cleaned_input {b : Block} {strip : Bool}
    (h : ∀ k, prefixOffset strip b.input ≤ k → k < b.ilen.toNat → (r38 (b.ibufByte k)).valid = true) :
    allValid (cleaned strip b.input) := by
  intro c hc
  obtain ⟨j, hj⟩ := List.mem_iff_getElem?.1 hc
  rw [cleaned, List.getElem?_drop, Block.input_getElem?_eq_some_iff] at hj
  obtain ⟨hlt, rfl⟩ := hj
  exact h _ (Nat.le_add_right _ j) hlt

theorem Block.length_cleaned_input (b : Block) (strip : Bool) :
    (cleaned strip b.input).length = b.ilen.toNat - prefixOffset strip b.input := by
  rw [cleaned, List.length_drop, Block.input_length]

/-- Settles O32: the word is looked at first, then `ILEN`, then the symbols of the cleaned input, then their number. -/
theorem errorPriority : Obligations.ErrorPriority := by
  intro b strip
  obtain ⟨_, overrun, _⟩ := resultIsAFunctionOfWordLengthInput.1 b
  refine ⟨commandResult_of_isReservedWord, overrun, fun hw fits => ?_⟩
  rw [commandResult_of_decoding hw fits]
  refine ⟨fun i hoff hi invalid before => ?_, fun valid bad => ?_⟩
  · refine (invalidCharacterIsTheFirstOffender strip b.input (b.ibufByte i) i).2
      ⟨hoff, Block.input_getElem?_eq_some_iff.2 ⟨hi, rfl⟩, invalid, fun k c hk hki hc => ?_⟩
    obtain ⟨_, rfl⟩ := Block.input_getElem?_eq_some_iff.1 hc
    exact before k hk hki
  · rw [← b.length_cleaned_input strip] at bad ⊢
    exact decodeText_of_not_legal (Block.allValid_cleaned_input valid) bad

end Sys2Proof.Machine
end

section
/-! The hazard flag and the interrupt output: which steps set and clear the one, and which raise and lower the other
(60_exceptions.md R230, R231). -/

namespace Sys2Proof.Machine

/-! ### The hazard flag (60_exceptions.md R230) -/

@[simp] theorem Block.publish_hzd (b : Block) (r : CommandResult) : (b.publish r).hzd = b.hzd := by cases r <;> rfl

@[simp] theorem engineStep_hzd (b : Block) : (engineStep b).hzd = b.hzd := by
  obtain running | idle := b.busy.eq_false_or_eq_true
  · rw [engineStep_of_busy running, Block.publish_hzd]
  · rw [engineStep_of_idle idle]

/-- The causes of a dropped write: a location that is not writable, a running command, a word that is no symbol. -/
theorem Block.drops_iff {b : Block} {a : PortIndex} {d : Word} :
    b.drops a d = true ↔ (locate b.ibufSize a).writable = false ∨ b.busy = true ∨
      ∃ i, locate b.ibufSize a = .ibuf i ∧ d.extractLsb' 8 24 ≠ 0 := by
  unfold Block.drops
  cases locate b.ibufSize a <;> simp [Location.writable]

/-- A write of a word that is no symbol to an entry of `IBUF` is dropped (40_commands.md R123 cases 2 and 5). -/
theorem Block.written_ibuf_of_high {b : Block} {d : Word} (h : d.extractLsb' 8 24 ≠ 0) (i : Nat) :
    b.written d (.ibuf i) = b.drop := by
  have dropped : b.writeSymbol i d = b.drop := if_pos h
  rw [Block.written, dropped]
  exact ite_self _

/-- A dropped write sets `HZD` and does nothing else. -/
theorem State.becomes_drop_of_drops {s : State} {a : PortIndex} {d : Word} (h : s.block.drops a d = true) :
    s.becomes a d s.block.drop := by
  obtain readOnly | running | ⟨i, hl, high⟩ := Block.drops_iff.1 h
  · exact State.becomes_drop_of_not_writable readOnly d
  · exact State.becomes_drop_of_busy running a d
  · exact Block.written_ibuf_of_high high i ▸ State.becomes_of_locate hl d

/-- An accepted command sets no hazard. -/
theorem Block.accepted_hzd_rise {b : Block} {i : Instr} (h : (b.accepted i).hzd = true) : b.hzd = true := by
  cases i with
  | clr => cases h
  | nop | enc | dec | decn | reserved w => exact h

/-- A write that sets the hazard flag is a dropped one. -/
theorem Block.drops_of_written_hzd {b : Block} {a : PortIndex} {d : Word} (clear : b.hzd = false)
    (h : (b.written d (locate b.ibufSize a)).hzd = true) : b.drops a d = true := by
  rw [Block.drops_iff]
  by_contra hno
  simp only [not_or, not_exists, not_and, Bool.not_eq_true, ne_eq, not_not] at hno
  obtain ⟨writable, idle, symbol⟩ := hno
  cases hl : locate b.ibufSize a with
  | ctrl | ilen => simp [hl, Block.written, Block.unlessBusy_of_idle idle, clear] at h
  | cmd =>
    rw [hl, Block.written, Block.unlessBusy_of_idle idle] at h
    simp [Block.accepted_hzd_rise h] at clear
  | ibuf i => simp [hl, Block.written, Block.unlessBusy_of_idle idle, Block.writeSymbol, symbol i hl, clear] at h
  | _ => simp [hl, Location.writable] at writable

/-- No read, no reset and no completion sets the hazard flag. -/
theorem exists_drops_of_hzd_rise {s t : State} (h : step s = .next t) (clear : s.block.hzd = false)
    (raised : t.block.hzd = true) : ∃ a d rest, s.pending = .hostWrite a d :: rest ∧ s.block.drops a d = true := by
  obtain ⟨_, rfl⟩ | ⟨e, rest, hp, _⟩ := step_cases h
  · simp [clear] at raised
  · cases e with
    | hostRead a => cases h.symm.trans (step_hostRead hp); simp [clear] at raised
    | hostReset => cases h.symm.trans (step_hostReset hp); simp at raised
    | engineCompletion => cases h.symm.trans (step_engineCompletion hp); simp [clear] at raised
    | hostWrite a d =>
      cases h.symm.trans (step_hostWrite hp)
      exact ⟨a, d, rest, hp, Block.drops_of_written_hzd clear raised⟩

theorem StepEffect.hzd_fall {s : State} {c : Block} (h : StepEffect s c) (hs : s.block.hzd = true)
    (hc : c.hzd = false) :
    (∃ rest, s.pending = .hostReset :: rest) ∨
      (s.block.busy = false ∧ ∃ rest, s.pending = issueWord 4 :: rest) := by
  cases h with
  | reset hp => exact .inl ⟨_, hp⟩
  | clr hp idle => exact .inr ⟨idle, _, hp⟩
  | _ => simp [hs] at hc

/-- Settles O37: a dropped write is the one cause of the flag, reset and `CLR` are its two ends. -/
theorem hazardFlagRecordsDroppedWrites : Obligations.HazardFlagRecordsDroppedWrites :=
  ⟨fun _ _ _ => State.becomes_drop_of_drops, fun _ _ => exists_drops_of_hzd_rise,
    fun _ _ h => (step_effect h).hzd_fall, commandResult_set_hzd⟩

/-! ### The interrupt output (60_exceptions.md R231) -/

theorem Block.irq_eq_true_iff {b : Block} : b.irq = true ↔ b.ie = true ∧ b.done = true :=
  Bool.and_eq_true_iff

theorem StepEffect.irq_rise {s : State} {c : Block} (h : StepEffect s c) (hs : s.block.irq = false)
    (hc : c.irq = true) :
    (s.engineNext ∧ s.block.busy = true ∧ s.block.ie = true) ∨
      (s.block.done = true ∧ ∃ d rest, s.pending = .hostWrite (wordIndex 0x0000) d :: rest ∧ d[0] = true) := by
  obtain ⟨enabled, completed⟩ := Block.irq_eq_true_iff.1 hc
  cases h with
  | complete hn running => exact .inl ⟨hn, running, s.block.publish_ie _ ▸ enabled⟩
  | setIe hp _ => exact .inr ⟨completed, _, _, hp, enabled⟩
  | reset | clr | launch => cases completed
  | unchanged | drop | setIlen | setIbuf | nop => cases hs.symm.trans hc

theorem StepEffect.irq_fall {s : State} {c : Block} (h : StepEffect s c) (hs : s.block.irq = true)
    (hc : c.irq = false) :
    (∃ rest, s.pending = .hostReset :: rest) ∨
      (∃ d rest, s.pending = .hostWrite (wordIndex 0x0000) d :: rest ∧ d[0] = false ∧ c.done = s.block.done) ∨
      ∃ w rest, s.pending = issueWord w :: rest ∧ (w = 4 ∨ (decode w).commandClass = .launching) := by
  obtain ⟨enabled, completed⟩ := Block.irq_eq_true_iff.1 hs
  cases h with
  | reset hp => exact .inl ⟨_, hp⟩
  | @setIe d rest hp _ =>
    have masked : (d[0] && s.block.done) = false := hc
    rw [completed, Bool.and_true] at masked
    exact .inr (.inl ⟨d, rest, hp, masked, rfl⟩)
  | clr hp _ => exact .inr (.inr ⟨_, _, hp, .inl rfl⟩)
  | launch hp _ hw => exact .inr (.inr ⟨_, _, hp, .inr hw⟩)
  | complete => simp [Block.irq, enabled] at hc
  | unchanged | drop | setIlen | setIbuf | nop => cases hs.symm.trans hc

/-- Settles O43: `IE` and `DONE` are read off each effect of a step. -/
theorem interruptFollowsCompletionAndEnable : Obligations.InterruptFollowsCompletionAndEnable :=
  fun _ _ h => ⟨(step_effect h).irq_rise, (step_effect h).irq_fall⟩

end Sys2Proof.Machine
end

section
/-! The reset step: what it leaves of the registers, and that the engine's steps after it find no command to complete
(70_reset_and_hazards.md R261, R266). -/

namespace Sys2Proof.Machine

/-- `CAP` shows the parameter alone, which a reset leaves (00_scope.md R10). -/
theorem Block.resetStep_capWord (b : Block) : b.resetStep.capWord = b.capWord := rfl

/-- Where `OLEN = 0` no entry of `OBUF` can be read, whatever it holds (20_memory.md R65). -/
theorem Block.obufWindow_of_olen_zero {b : Block} (h : b.olen = 0) (j : Nat) : b.obufWindow j = 0 :=
  Block.obufWindow_of_olen_le (by simp [h])

/-- Settles O47: each register is read off the block that the reset step leaves, and from these `irq` and the window. -/
theorem resetStepClearsEveryRegister : Obligations.ResetStepClearsEveryRegister := by
  intro s rest hp
  exact ⟨_, step_hostReset hp, rfl, rfl, rfl, rfl, rfl, rfl, rfl, rfl, rfl, rfl, rfl, rfl, rfl,
    Block.irq_of_not_done s.block.resetStep_done, s.block.resetStep_capWord,
    Block.obufWindow_of_olen_zero s.block.resetStep_olen⟩

/-- A completion that comes while no command runs is passed over (40_commands.md R121). -/
theorem step_engineCompletion_of_idle {s : State} {rest : List AgentStep} (idle : s.block.busy = false)
    (hp : s.pending = .engineCompletion :: rest) : step s = .next (s.withPending rest) := by
  rw [step_engineCompletion hp, engineStep_of_idle idle]
  rfl

/-- However many completions come while no command runs, all are passed over. -/
theorem run_engineCompletions_of_idle {n : Nat} {s : State} {rest : List AgentStep} (idle : s.block.busy = false)
    (hp : s.pending = List.replicate n .engineCompletion ++ rest) :
    core.run n s = .next (s.withPending rest) := by
  induction n generalizing s with
  | zero =>
    obtain rfl : s.pending = rest := hp
    rfl
  | succ n ih =>
    rw [List.replicate_succ, List.cons_append] at hp
    rw [core_run_succ (step_engineCompletion_of_idle idle hp)]
    exact ih (s := s.withPending _) idle rfl

/-- Settles O48: the reset leaves `BUSY = 0`, and where no command runs the engine has nothing to publish. -/
theorem resetAbandonsTheRunningCommand : Obligations.ResetAbandonsTheRunningCommand := by
  intro s n rest hp
  exact ⟨_, _, step_hostReset hp, s.block.resetStep_busy, s.block.resetStep_done,
    run_engineCompletions_of_idle s.block.resetStep_busy rfl, rfl⟩

end Sys2Proof.Machine
end

section
/-! The engine's turn: one equation for the completion that is named and for the one taken when nothing is pending, the
entries of the physical `OBUF` that a completion can change, and the two statements on the model's choices
(40_commands.md R121, R128, R132). -/

namespace Sys2Proof.Machine

theorem State.withPending_tail_of_nil {s : State} (hp : s.pending = []) : s.withPending s.pending.tail = s := by
  rw [hp, List.tail_nil, ← hp]
  rfl

/-- The engine's step is the same whether it is named or nothing is pending. -/
theorem step_of_engineNext {s : State} (hn : s.engineNext) :
    step s = .next ((s.withPending s.pending.tail).withBlock (engineStep s.block)) := by
  obtain hp | ⟨rest, hp⟩ := hn
  · have idleHost : nextAction s = .other (s.withBlock (engineStep s.block)) := by rw [nextAction, hp]
    rw [step, idleHost, State.withPending_tail_of_nil hp]
  · rw [step_engineCompletion hp, hp, List.tail_cons]

/-- The completion of a running command, named or not (40_commands.md R128). -/
theorem step_of_engineNext_of_busy {s : State} (hn : s.engineNext) (running : s.block.busy = true) :
    step s = .next ((s.withPending s.pending.tail).withBlock (s.block.publish (commandResult s.block))) := by
  rw [step_of_engineNext hn, engineStep_of_busy running]

/-- Settles O33: the engine's step is one function of the block, which is the identity where no command runs. -/
theorem engineStepsOnlyWhileBusy : Obligations.EngineStepsOnlyWhileBusy := by
  refine ⟨fun s idle hp => ?_, fun s rest idle hp => ?_, fun s running hp => ?_, fun s hp => ?_⟩
  · rw [step_of_engineNext (.inl hp), engineStep_of_idle idle, State.withPending_tail_of_nil hp]
    rfl
  · exact step_engineCompletion_of_idle idle hp
  · exact ⟨_, step_of_engineNext_of_busy (.inl hp) running, s.block.publish_busy _, s.block.publish_done _⟩
  · have named : (s.withPending [.engineCompletion]).engineNext := .inr ⟨[], rfl⟩
    rw [step_of_engineNext (.inl hp), step_of_engineNext named, hp]
    rfl

/-- A completion writes only the entries that the output of a success covers (40_commands.md R128). -/
theorem Block.obufByte_publish_change {b : Block} {r : CommandResult} {j : Nat}
    (hc : (b.publish r).obufByte j ≠ b.obufByte j) : ∃ out, r = .ok out ∧ j < out.length := by
  cases r with
  | ok out =>
    refine ⟨out, rfl, ?_⟩
    by_contra beyond
    exact hc ((b.obufByte_finish out j).trans (dif_neg beyond))
  | err code ch pos => exact absurd rfl hc

/-- Beyond the output, and after an error everywhere, the physical `OBUF` is as before the completion. -/
theorem Block.obufByte_publish_of_uncovered {b : Block} {r : CommandResult} {j : Nat}
    (uncovered : ∀ out, r = .ok out → out.length ≤ j) : (b.publish r).obufByte j = b.obufByte j := by
  by_contra hc
  obtain ⟨out, hr, covered⟩ := Block.obufByte_publish_change hc
  exact Nat.not_lt.2 (uncovered out hr) covered

/-- An accepted launching command leaves the launched block (40_commands.md R127). -/
theorem exec_launching_of_idle {i : Instr} {s : State} (hi : i.commandClass = .launching)
    (idle : s.block.busy = false) : exec i s = .next (s.withBlock (s.block.launch (encode i))) := by
  rw [exec_of_idle idle, Block.accepted_of_launching _ hi]

/-- Settles O53: among the steps that are no reset only the completion writes `OBUF`, and the launch before it does not. -/
theorem unreadableOutputEntriesKeepTheirContent : Obligations.UnreadableOutputEntriesKeepTheirContent := by
  refine ⟨fun s t h => or_iff_not_imp_left.2 fun hr j hc => ?_, fun i s _ hi idle hn => ?_⟩
  · obtain ⟨hn, running⟩ := (step_effect h).obufByte_change hr hc
    cases h.symm.trans (step_of_engineNext_of_busy hn running)
    exact ⟨hn, running, Block.obufByte_publish_change hc⟩
  · have completion := step_of_engineNext_of_busy (s := s.withBlock (s.block.launch (encode i))) hn rfl
    exact ⟨_, _, exec_launching_of_idle hi idle, completion, rfl, Block.publish_busy _ _,
      fun j uncovered => Block.obufByte_publish_of_uncovered uncovered⟩

end Sys2Proof.Machine
end
